-- ==== Sys2Proof/Word.lean ====
section
/-! DEFINITION. The words of the block and its named codes: bytes, 32-bit integers (00_scope.md R9), the decoder
states (10_state.md R21) and the payload types (10_state.md R22). -/

namespace Sys2Proof

/-- A byte, 8 bits, bit 0 least significant (R9, R12). -/
abbrev Byte := BitVec 8

/-- An integer of the wire: 32 bits, unsigned (R9). -/
abbrev U32 := BitVec 32

/-- A finite sequence of bytes, in arrival order (R13). -/
abbrev Bytes := List Byte

/-- The three decoder states that `st` holds. There is no fourth value (R21). -/
inductive St where
  | idle
  | collectingLabel
  | collectingPayload
deriving DecidableEq, Repr

/-- The payload types that `ptype` holds (R15, R22). No rule writes `charPair` (R68). -/
inductive PType where
  | singleInt
  | intPair
  | char
  | charPair
deriving DecidableEq, Repr

end Sys2Proof
end

