-- ==== Sys2Proof/Config.lean ====
section
/-! DEFINITION. The static parameters of the block at the values of 00_scope.md R7, R8 and R11 (log entry 5), and
what a buffer cell that nothing has written reads as (log entry 4). -/

namespace Sys2Proof.Config

/-- `M_START`, the character `<` (R7). -/
abbrev mStart : Byte := 0x3C#8
/-- `M_INT`, the character `|` (R7, 90_conflicts.md C10). -/
abbrev mInt : Byte := 0x7C#8
/-- `M_INT2`, the character `~` (R7). -/
abbrev mInt2 : Byte := 0x7E#8
/-- `M_CHAR`, the character `@` (R7). -/
abbrev mChar : Byte := 0x40#8
/-- `M_END`, the character `>` (R7). -/
abbrev mEnd : Byte := 0x3E#8

/-- `CAP_LABEL`, reference value (R8). -/
abbrev capLabel : Nat := 100
/-- `CAP_PAYLOAD`, reference value (R8). -/
abbrev capPayload : Nat := 100
/-- `LMAX`: the label buffer holds one byte less than its capacity (R8, 90_conflicts.md C5). -/
abbrev lmax : Nat := capLabel - 1
/-- `PMAX`: the payload buffer holds one byte less than its capacity (R8, 90_conflicts.md C5). -/
abbrev pmax : Nat := capPayload - 1
/-- `LENW`: the least width that holds 0 to `CAP - 1` (R9). -/
abbrev lenw : Nat := 7

/-- `ERR_LABEL`, the string `Err` (R11). -/
abbrev errLabel : Bytes := [0x45#8, 0x72#8, 0x72#8]

/-- DESIGN CHOICE (log entry 4, unsafe): what a buffer cell that nothing has written reads as. The spec leaves
it unspecified and unobservable (R27, R35). -/
abbrev unwrittenCell : Byte := 0x00#8

end Sys2Proof.Config
end

