-- ==== Sys2Proof/Syntax.lean ====
section
/-! DEFINITION. The operations of the block: one constructor per row of spec/opcode_table.json, in the table's
order (30_encoding.md R62). -/

namespace Sys2Proof

/-- One operation of the opcode table with its operand. The operand of a format B row is the received byte
(R70, R90); a row that uses no byte carries none. -/
inductive Instr where
  /-- RESET, 70_reset_and_hazards.md R180. -/
  | reset
  /-- HOLD, 44_stream.md R136. -/
  | hold
  /-- SYNC, 40_idle.md R91. -/
  | sync
  /-- NOISE of the offending byte, 40_idle.md R92. -/
  | noise (b : Byte)
  /-- LTYPE_INT, 41_label.md R101. -/
  | ltypeInt
  /-- LTYPE_INT2, 41_label.md R102. -/
  | ltypeInt2
  /-- LTYPE_CHAR, 41_label.md R103. -/
  | ltypeChar
  /-- LAPPEND of a label byte, 41_label.md R104. -/
  | lappend (b : Byte)
  /-- LOVF at the byte that does not fit, 41_label.md R105. -/
  | lovf (b : Byte)
  /-- PEND, 42_payload.md R111. -/
  | pend
  /-- PAPPEND of a payload byte, 42_payload.md R112. -/
  | pappend (b : Byte)
  /-- POVF at the byte that does not fit, 42_payload.md R113. -/
  | povf (b : Byte)
  /-- DECODE32 of four bytes, first on the wire first, 43_unmarshal.md R120. -/
  | decode32 (b0 b1 b2 b3 : Byte)
  /-- UNMARSHAL of a recorded type and a payload, 43_unmarshal.md R122. -/
  | unmarshal (t : PType) (p : Bytes)
  /-- ENCODE32 of a 32-bit value, 43_unmarshal.md R125. -/
  | encode32 (v : U32)
deriving DecidableEq, Repr

end Sys2Proof
end

