-- ==== Sys2Proof/WellFormed.lean ====
section
/-! DEFINITION. Which operations, with which operands, the opcode table has: the byte condition of each row of
30_encoding.md R62 and the payload bound of the UNMARSHAL row. -/

namespace Sys2Proof

/-- `TypeMarker`, the union of INT, INT2 and CHAR (30_encoding.md R61). -/
def isTypeMarker (b : Byte) : Bool :=
  b == Config.mInt || b == Config.mInt2 || b == Config.mChar

/-- The operand is one the row admits (R62 rows 4, 8, 9, 11, 12; UNMARSHAL: 0 to `PMAX` bytes). -/
def Instr.wellFormed : Instr → Bool
  | .reset => true
  | .hold => true
  | .sync => true
  | .noise b => b != Config.mStart
  | .ltypeInt => true
  | .ltypeInt2 => true
  | .ltypeChar => true
  | .lappend b => !isTypeMarker b
  | .lovf b => !isTypeMarker b
  | .pend => true
  | .pappend b => b != Config.mEnd
  | .povf b => b != Config.mEnd
  | .decode32 _ _ _ _ => true
  | .unmarshal _ p => decide (p.length ≤ Config.pmax)
  | .encode32 _ => true

end Sys2Proof
end

