-- ==== Sys2Proof/Decode.lean ====
section
/-! DEFINITION. Operation decode (30_encoding.md section 2, 44_stream.md R135): what the selection logic sees, the
operation it selects, the decode word of R63 and, after the decoder, the encoder. -/

namespace Sys2Proof

/-! ## What the selection logic sees -/

/-- The inputs of a step and the parts of the state that select its operation (R62): `rst`, the byte presented if
any, the state register, and whether the counter of the field being collected is at its maximum. -/
structure Selection where
  rst  : Bool
  rx   : Option Byte
  st   : St
  full : Bool
deriving DecidableEq, Repr

/-- The operation that a step performs, by the tests of R135 in their order: reset, presence of a byte, the markers
the state looks for, and only then the room in the buffer (R100, R110, R160). -/
def decode (x : Selection) : Instr :=
  if x.rst then .reset
  else
    match x.rx with
    | none => .hold
    | some b =>
      match x.st with
      | .idle => if b = Config.mStart then .sync else .noise b
      | .collectingLabel =>
        if b = Config.mInt then .ltypeInt
        else if b = Config.mInt2 then .ltypeInt2
        else if b = Config.mChar then .ltypeChar
        else if x.full then .lovf b
        else .lappend b
      | .collectingPayload =>
        if b = Config.mEnd then .pend
        else if x.full then .povf b
        else .pappend b

/-! ## The decode word -/

/-- The state code of R21: Idle 0, CollectingLabel 1, CollectingPayload 2. -/
def St.code : St → BitVec 2
  | .idle => 0#2
  | .collectingLabel => 1#2
  | .collectingPayload => 2#2

/-- The state that a code stands for; code 3 stands for none (R21). -/
def St.ofCode (c : BitVec 2) : Option St :=
  if c = 0#2 then some .idle
  else if c = 1#2 then some .collectingLabel
  else if c = 2#2 then some .collectingPayload
  else none

/-- Why a word is no decode word. -/
inductive DecodeError where
  /-- Bits [9:8] hold the state code 3, which the state register never holds (R21). -/
  | stateCodeThree
  /-- A bit above bit 12 is set: no operation has such a bit. -/
  | wordTooWide
deriving DecidableEq, Repr

/-- A selection word, 13 bits. Bits [9:0] are the decode word `{st, byte}` of R63. Bits 12 to 10 are the model's own
(DESIGN CHOICE, log entry 10), zero in every word of the table: bit 10 is `rst`, bit 11 says that no byte is
presented, bit 12 that the counter is at its maximum. -/
abbrev SelWord := BitVec 13

/-- The fields of a selection word; refused by name when the state code is 3. -/
def Selection.ofWord (w : SelWord) : Except DecodeError Selection :=
  match St.ofCode (w.extractLsb' 8 2) with
  | none => .error .stateCodeThree
  | some st =>
    .ok { rst := w.getLsbD 10
          rx := if w.getLsbD 11 then none else some (w.extractLsb' 0 8)
          st := st
          full := w.getLsbD 12 }

/-- The operation of a selection word. -/
def decodeWord (w : SelWord) : Except DecodeError Instr :=
  match Selection.ofWord w with
  | .error e => .error e
  | .ok x => .ok (decode x)

/-- The operation of any number read as a word, bit 0 least significant: total, refusing by name. -/
def decodeNat (w : Nat) : Except DecodeError Instr :=
  if w < 8192 then decodeWord (BitVec.ofNat 13 w) else .error .wordTooWide

/-- The number that a row of `nbits` bits holds. A row to which the table gives no bits presents no byte
(R63: format C is selected by the control inputs; log entry 11): its word is the one of HOLD. -/
def tableNat (nbits w : Nat) : Nat :=
  if nbits = 0 then 0x800 else w % 2 ^ nbits

/-- The operation read from a word of the opcode table (the host's fixed name). -/
def decodeTableWord (nbits w : Nat) : Option Instr :=
  match decodeNat (tableNat nbits w) with
  | .error _ => none
  | .ok i => some i

/-! ## The encoder -/

/-- The word with the given top bits, state code and byte. -/
def selWord (full noByte rst : Bool) (st : St) (b : Byte) : SelWord :=
  BitVec.ofBool full ++ BitVec.ofBool noByte ++ BitVec.ofBool rst ++ st.code ++ b

/-- The word that selects an operation, from the match column of R63 and the operand byte. The pure functions of
format F are selected by no input and have no word. -/
def encode : Instr → Option SelWord
  | .reset => some (selWord false false true .idle 0#8)
  | .hold => some (selWord false true false .idle 0#8)
  | .sync => some (selWord false false false .idle Config.mStart)
  | .noise b => some (selWord false false false .idle b)
  | .ltypeInt => some (selWord false false false .collectingLabel Config.mInt)
  | .ltypeInt2 => some (selWord false false false .collectingLabel Config.mInt2)
  | .ltypeChar => some (selWord false false false .collectingLabel Config.mChar)
  | .lappend b => some (selWord false false false .collectingLabel b)
  | .lovf b => some (selWord true false false .collectingLabel b)
  | .pend => some (selWord false false false .collectingPayload Config.mEnd)
  | .pappend b => some (selWord false false false .collectingPayload b)
  | .povf b => some (selWord true false false .collectingPayload b)
  | .decode32 _ _ _ _ => none
  | .unmarshal _ _ => none
  | .encode32 _ => none

/-! ## The opcode table as the spec prints it -/

/-- The condition column of R63. -/
inductive RowCond where
  | always
  | room
  | full
deriving DecidableEq, Repr

/-- The condition holds of a counter that is, or is not, at its maximum. -/
def RowCond.holds (c : RowCond) (full : Bool) : Bool :=
  match c with
  | .always => true
  | .room => !full
  | .full => full

/-- A row of format B of the table of R63, and the operation it stands for. -/
structure OpRow where
  value    : BitVec 10
  mask     : BitVec 10
  priority : Nat
  cond     : RowCond
  op       : Byte → Instr

/-- The ten rows of format B, as R63 prints them. -/
def opRows : List OpRow :=
  [ ⟨0x03C#10, 0x3FF#10, 1, .always, fun _ => .sync⟩,
    ⟨0x000#10, 0x300#10, 2, .always, .noise⟩,
    ⟨0x17C#10, 0x3FF#10, 1, .always, fun _ => .ltypeInt⟩,
    ⟨0x17E#10, 0x3FF#10, 1, .always, fun _ => .ltypeInt2⟩,
    ⟨0x140#10, 0x3FF#10, 1, .always, fun _ => .ltypeChar⟩,
    ⟨0x100#10, 0x300#10, 2, .room, .lappend⟩,
    ⟨0x100#10, 0x300#10, 2, .full, .lovf⟩,
    ⟨0x23E#10, 0x3FF#10, 1, .always, fun _ => .pend⟩,
    ⟨0x200#10, 0x300#10, 2, .room, .pappend⟩,
    ⟨0x200#10, 0x300#10, 2, .full, .povf⟩ ]

/-- `(w & mask) = match` and the condition holds. -/
def OpRow.hits (r : OpRow) (w : BitVec 10) (full : Bool) : Bool :=
  w &&& r.mask == r.value && r.cond.holds full

/-- The row applies: it hits and no row with a smaller priority number hits (R63). -/
def OpRow.applies (r : OpRow) (w : BitVec 10) (full : Bool) : Bool :=
  r.hits w full && opRows.all (fun r' => !(r'.hits w full && decide (r'.priority < r.priority)))

/-- The operations of the rows that apply to a decode word. -/
def tableSelect (w : BitVec 10) (full : Bool) : List Instr :=
  (opRows.filter (fun r => r.applies w full)).map (fun r => r.op (w.extractLsb' 0 8))

/-! ## Byte classes -/

/-- The classes of R61. -/
inductive ByteClass where
  | start
  | int
  | int2
  | char
  | stop
  | other
deriving DecidableEq, Repr

/-- The class of a byte (R61); `stop` is the class END. -/
def byteClass (b : Byte) : ByteClass :=
  if b = Config.mStart then .start
  else if b = Config.mInt then .int
  else if b = Config.mInt2 then .int2
  else if b = Config.mChar then .char
  else if b = Config.mEnd then .stop
  else .other

end Sys2Proof
end

