-- ==== Sys2Proof/Machine/State.lean ====
section
/-! DEFINITION. The state of the machine as plain data (10_state.md), the events it emits (00_scope.md R15), the
reasons a step can stop, and the state after reset. -/

namespace Sys2Proof.Machine

/-- The integer view of a completed packet (R15, R122). -/
inductive IntView where
  | noInts
  | one (v1 : U32)
  | two (v1 v2 : U32)
  | lenMismatch
deriving DecidableEq, Repr

/-- Which buffer overflowed (R15). -/
inductive Which where
  | label
  | payload
deriving DecidableEq, Repr

/-- The output event of a step (R15). -/
inductive Event where
  /-- A completed packet, to the caller (R33). -/
  | packet (label : Bytes) (ptype : PType) (payload : Bytes) (ints : IntView)
  /-- The error notice for an out-of-protocol byte, to the tx side of the channel (R32). -/
  | notice (b : Byte)
  /-- A buffer overflow, to the caller (R33). -/
  | overflow (which : Which)
deriving DecidableEq, Repr

/-- What the environment presents in one step: the reset signal and the byte, if any (R30, R31, R135). -/
structure Input where
  rst : Bool
  rx  : Option Byte
deriving DecidableEq, Repr

/-- The result of a pure function of the opcode table (R120, R122, R125). -/
inductive FnResult where
  | word (v : U32)
  | view (v : IntView)
  | bytes (l : Bytes)
deriving DecidableEq, Repr

/-- A buffer: cells by index, indices strictly rising, no entry equal to what an unlisted cell reads as
(`Memory.wf`). -/
abbrev Memory := List Host.Cell

/-- A step of this machine never stops with a fault: "No condition stops the block" (R165), and every error
condition is an event (R161). So there is no constructor. -/
inductive Fault where
deriving DecidableEq, Repr

/-- Why a step has no meaning. -/
inductive Refusal where
  /-- Raised by the dispatch for an operation of the table that has no meaning yet (safe). No arm raises it. -/
  | notModelled (mnemonic : String)
deriving DecidableEq, Repr

/-- The state. The first six fields are the whole architectural state of the block (R20); the last three are the
model's own. -/
structure State where
  /-- The decoder state (R21). -/
  st : St
  /-- The payload type recorded at the type marker (R22). -/
  ptype : PType
  /-- The number of valid label bytes, 0 to `LMAX` (R23; log entry 6). -/
  llen : Fin Config.capLabel
  /-- The number of valid payload bytes, 0 to `PMAX` (R24; log entry 6). -/
  plen : Fin Config.capPayload
  /-- The label buffer (R23). -/
  lbuf : Memory
  /-- The payload buffer (R24). -/
  pbuf : Memory
  /-- MODEL'S OWN: what the environment will present, next step first (R30, R31, R138; log entry 1). -/
  inputs : List Input
  /-- MODEL'S OWN: the events emitted so far, oldest first; no rule reads it (R36, R51; log entry 2). -/
  events : List Event
  /-- MODEL'S OWN: the result of the pure function evaluated last; no rule reads it (log entry 3). -/
  fnResult : Option FnResult
deriving DecidableEq, Repr

/-- The state after reset (R20, R27, R181): canonical Idle; no cell listed (log entry 4), no input waiting
(log entry 1), no event emitted (R138), no function evaluated (log entry 3). -/
def State.reset : State where
  st := .idle
  ptype := .singleInt
  llen := 0
  plen := 0
  lbuf := []
  pbuf := []
  inputs := []
  events := []
  fnResult := none

end Sys2Proof.Machine
end

