-- ==== Sys2Proof/Machine/Flags.lean ====
section
/-! DEFINITION. The block has no status flag, condition code or sticky error bit (10_state.md R28). What takes their
place are the conditions that a step computes from its state: the room in the buffers (30_encoding.md R62) and the
payload length that an integer type implies (60_exceptions.md R154). -/

namespace Sys2Proof.Machine

/-- `llen < LMAX` (R62 row 8). -/
def labelRoom (s : State) : Bool := decide (s.llen.val < Config.lmax)

/-- `plen < PMAX` (R62 row 11). -/
def payloadRoom (s : State) : Bool := decide (s.plen.val < Config.pmax)

/-- The counter of the field being collected is at its maximum; in Idle no counter is tested (R135). -/
def fieldFull (s : State) : Bool :=
  match s.st with
  | .idle => false
  | .collectingLabel => !labelRoom s
  | .collectingPayload => !payloadRoom s

/-- The cause of LengthMismatch: the payload length is not the one the type implies (R154). -/
def lengthWrong (t : PType) (plen : Nat) : Bool :=
  match t with
  | .singleInt => plen != 4
  | .intPair => plen != 8
  | .char => false
  | .charPair => false

end Sys2Proof.Machine
end

