-- ==== Sys2Proof/Machine/Operands.lean ====
section
/-! DEFINITION. Operand assembly: the integer codec and the unmarshaller (43_unmarshal.md), and the operand forms of
the interface (10_state.md R30). -/

namespace Sys2Proof.Machine

/-- `Decode32`, shifting and OR-ing in the order received (R120). -/
def decode32Val (b0 b1 b2 b3 : Byte) : U32 :=
  let v := 0#32
  let v := (v <<< 8) ||| b0.zeroExtend 32
  let v := (v <<< 8) ||| b1.zeroExtend 32
  let v := (v <<< 8) ||| b2.zeroExtend 32
  (v <<< 8) ||| b3.zeroExtend 32

/-- `Encode32`, most significant byte first (R125). -/
def encode32Bytes (v : U32) : Bytes :=
  [v.extractLsb' 24 8, v.extractLsb' 16 8, v.extractLsb' 8 8, v.extractLsb' 0 8]

/-- `Unmarshal(SingleInt, p)`: one integer when there are exactly four bytes (R122). -/
def unmarshalOne (p : Bytes) : IntView :=
  match p with
  | [b0, b1, b2, b3] => .one (decode32Val b0 b1 b2 b3)
  | _ => .lenMismatch

/-- `Unmarshal(IntPair, p)`: two independent integers when there are exactly eight bytes (R122). -/
def unmarshalTwo (p : Bytes) : IntView :=
  match p with
  | [b0, b1, b2, b3, b4, b5, b6, b7] => .two (decode32Val b0 b1 b2 b3) (decode32Val b4 b5 b6 b7)
  | _ => .lenMismatch

/-- `Unmarshal(ptype, payload)`, the integer view of a completed packet (R122). -/
def unmarshalView (t : PType) (p : Bytes) : IntView :=
  match t with
  | .singleInt => unmarshalOne p
  | .intPair => unmarshalTwo p
  | .char => .noInts
  | .charPair => .noInts

/-- The input that the pins present: `rx_data` counts only when `rx_valid` is 1 (R30, R135). -/
def inputOfPins (rst rxValid : Bool) (rxData : Byte) : Input :=
  { rst := rst, rx := if rxValid then some rxData else none }

/-- The input of a step in which the byte `b` arrives (R138). -/
def byteInput (b : Byte) : Input := { rst := false, rx := some b }

/-- The input of a step in which nothing is presented (R136). -/
def idleInput : Input := { rst := false, rx := none }

end Sys2Proof.Machine
end

