-- ==== Sys2Proof/Machine/Ops.lean ====
section
/-! DEFINITION. The named operations over the buffers, the registers and the event history (20_memory.md section 3),
and raising an error condition as one shared operation (60_exceptions.md section 4). -/

namespace Sys2Proof.Machine

/-! ## Buffers -/

/-- The canonical form of a buffer of `size` cells: indices strictly rising, below `size`, and no entry equal to what
an unlisted cell reads as. -/
abbrev Memory.wf (size : Nat) (m : Memory) : Prop :=
  m.Pairwise (fun x y => x.1 < y.1) ∧ ∀ c ∈ m, c.1 < size ∧ c.2 ≠ Config.unwrittenCell

/-- Read one cell. -/
def Memory.read (m : Memory) (i : Nat) : Byte :=
  match m with
  | [] => Config.unwrittenCell
  | (k, v) :: rest => if k = i then v else Memory.read rest i

/-- Write one cell, keeping the canonical form: writing what an unlisted cell reads as removes the entry. -/
def Memory.write (m : Memory) (i : Nat) (b : Byte) : Memory :=
  match m with
  | [] => if b = Config.unwrittenCell then [] else [(i, b)]
  | (k, v) :: rest =>
    if i < k then (if b = Config.unwrittenCell then (k, v) :: rest else (i, b) :: (k, v) :: rest)
    else if i = k then (if b = Config.unwrittenCell then rest else (i, b) :: rest)
    else (k, v) :: Memory.write rest i b

/-- `BufRead(buf, i, n)`: the bytes `buf[i], ..., buf[i+n-1]`. Every caller reads below the buffer's counter, as
R46 asks. -/
def bufRead (m : Memory) (i n : Nat) : Bytes := (List.range n).map (fun k => m.read (i + k))

/-- The label value `lbuf[0 .. llen-1]` (R13). -/
def labelOf (s : State) : Bytes := bufRead s.lbuf 0 s.llen.val

/-- The payload value `pbuf[0 .. plen-1]` (R13). -/
def payloadOf (s : State) : Bytes := bufRead s.pbuf 0 s.plen.val

/-! ## The event history and canonical Idle -/

/-- `emit E`: the step's event goes to the end of the history (R14, R51). -/
def emit (e : Event) (s : State) : State := { s with events := s.events ++ [e] }

/-- Enter canonical Idle: the reset values in `st`, `ptype`, `llen` and `plen`, no cell written (R27, R50). -/
def enterIdle (s : State) : State :=
  { s with st := .idle, ptype := .singleInt, llen := 0, plen := 0 }

/-! ## Error conditions -/

/-- The four error conditions of R156, each with the value it records. -/
inductive Condition where
  /-- MalformedInput, with the offending byte (R151). -/
  | malformedInput (b : Byte)
  /-- BufferOverflow, cause Label (R152). -/
  | overflowLabel
  /-- BufferOverflow, cause Payload (R153). -/
  | overflowPayload
  /-- LengthMismatch of the packet being completed (R154). -/
  | lengthMismatch (label : Bytes) (ptype : PType) (payload : Bytes)
deriving DecidableEq, Repr

/-- The event that reports a condition (R156, R161). -/
def Condition.event : Condition → Event
  | .malformedInput b => .notice b
  | .overflowLabel => .overflow .label
  | .overflowPayload => .overflow .payload
  | .lengthMismatch l t p => .packet l t p .lenMismatch

/-- Raising a condition, the machine's whole exception entry (R161): its event, and canonical Idle but for
MalformedInput, which leaves the state as it is. Nothing is saved and there is no handler; recovery needs no
operation (R163). -/
def raise (c : Condition) (s : State) : State :=
  match c with
  | .malformedInput _ => emit c.event s
  | .overflowLabel => enterIdle (emit c.event s)
  | .overflowPayload => enterIdle (emit c.event s)
  | .lengthMismatch _ _ _ => enterIdle (emit c.event s)

/-- The cause code of a step's event (R156). -/
def causeCode : Option Event → Nat
  | none => 0
  | some (.notice _) => 1
  | some (.overflow .label) => 2
  | some (.overflow .payload) => 3
  | some (.packet _ _ _ .lenMismatch) => 4
  | some (.packet _ _ _ .noInts) => 0
  | some (.packet _ _ _ (.one _)) => 0
  | some (.packet _ _ _ (.two _ _)) => 0

/-! ## Append and delivery -/

/-- `Append(lbuf, b)` when there is room; "when it fails the operation is the overflow operation instead" (R45). -/
def appendLabel (b : Byte) (s : State) : State :=
  if h : s.llen.val < Config.lmax then
    { s with lbuf := s.lbuf.write s.llen.val b, llen := ⟨s.llen.val + 1, Nat.add_lt_of_lt_sub h⟩ }
  else raise .overflowLabel s

/-- `Append(pbuf, b)` when there is room; "when it fails the operation is the overflow operation instead" (R45). -/
def appendPayload (b : Byte) (s : State) : State :=
  if h : s.plen.val < Config.pmax then
    { s with pbuf := s.pbuf.write s.plen.val b, plen := ⟨s.plen.val + 1, Nat.add_lt_of_lt_sub h⟩ }
  else raise .overflowPayload s

/-- End the label: record the type, reset the payload buffer, collect the payload (R101 to R103). -/
def endLabel (t : PType) (s : State) : State :=
  { s with st := .collectingPayload, ptype := t, plen := 0 }

/-- Complete the packet and deliver it (R111): all values are those from before the step. A wrong payload length
raises LengthMismatch, which delivers the same packet without integers (R154). -/
def deliver (s : State) : State :=
  match unmarshalView s.ptype (payloadOf s) with
  | .lenMismatch => raise (.lengthMismatch (labelOf s) s.ptype (payloadOf s)) s
  | .noInts => enterIdle (emit (.packet (labelOf s) s.ptype (payloadOf s) .noInts) s)
  | .one v1 => enterIdle (emit (.packet (labelOf s) s.ptype (payloadOf s) (.one v1)) s)
  | .two v1 v2 => enterIdle (emit (.packet (labelOf s) s.ptype (payloadOf s) (.two v1 v2)) s)

/-- Put the result of a pure function where it can be read (log entry 3). -/
def returnResult (r : FnResult) (s : State) : State := { s with fnResult := some r }

/-! ## The inputs -/

/-- The input of the next step; when none is waiting nothing is presented (log entry 1). -/
def nextInput (s : State) : Input :=
  match s.inputs with
  | [] => idleInput
  | x :: _ => x

/-- The input is consumed: read once, never looked at again (R30, R49, R54). -/
def popInput (s : State) : State := { s with inputs := s.inputs.tail }

/-- The operation that the next step performs (R62, R135). -/
def selected (s : State) : Instr :=
  decode { rst := (nextInput s).rst, rx := (nextInput s).rx, st := s.st, full := fieldFull s }

end Sys2Proof.Machine
end

