-- ==== Sys2Proof/Machine/Codec.lean ====
section
/-! DEFINITION. The pure functions of format F (43_unmarshal.md) as operations: each writes nothing of the block and
returns its result in the model's own field (log entry 3). No input selects them. -/

namespace Sys2Proof.Machine

/-- DECODE32 (R120): four bytes to one 32-bit unsigned value. -/
def execDecode32 (b0 b1 b2 b3 : Byte) (s : State) : Host.Outcome State Fault Refusal :=
  .next (returnResult (.word (decode32Val b0 b1 b2 b3)) s)

/-- UNMARSHAL (R122): the integer view of a payload. -/
def execUnmarshal (t : PType) (p : Bytes) (s : State) : Host.Outcome State Fault Refusal :=
  .next (returnResult (.view (unmarshalView t p)) s)

/-- ENCODE32 (R125): one 32-bit unsigned value to four bytes. -/
def execEncode32 (v : U32) (s : State) : Host.Outcome State Fault Refusal :=
  .next (returnResult (.bytes (encode32Bytes v)) s)

end Sys2Proof.Machine
end

