-- ==== Sys2Proof/Machine/Control.lean ====
section
/-! DEFINITION. The operations selected by the control inputs: RESET (70_reset_and_hazards.md R180) and HOLD
(44_stream.md R136). -/

namespace Sys2Proof.Machine

/-- RESET (R180): canonical Idle, no event, no cell written; a byte presented with it is lost (R184). -/
def execReset (s : State) : Host.Outcome State Fault Refusal := .next (enterIdle s)

/-- HOLD (R136): nothing is written and nothing is emitted. -/
def execHold (s : State) : Host.Outcome State Fault Refusal := .next s

end Sys2Proof.Machine
end

