-- ==== Sys2Proof/Machine/Idle.lean ====
section
/-! DEFINITION. The operations in state Idle (40_idle.md): SYNC and NOISE. -/

namespace Sys2Proof.Machine

/-- SYNC (R91): reset the label buffer and begin a packet. -/
def execSync (s : State) : Host.Outcome State Fault Refusal :=
  .next { s with llen := 0, st := .collectingLabel }

/-- NOISE (R92): raise MalformedInput with the offending byte. -/
def execNoise (b : Byte) (s : State) : Host.Outcome State Fault Refusal :=
  .next (raise (.malformedInput b) s)

end Sys2Proof.Machine
end

