-- ==== Sys2Proof/Machine/Label.lean ====
section
/-! DEFINITION. The operations in state CollectingLabel (41_label.md): LTYPE_INT, LTYPE_INT2, LTYPE_CHAR, LAPPEND
and LOVF. -/

namespace Sys2Proof.Machine

/-- LTYPE_INT (R101): the payload is one integer. -/
def execLtypeInt (s : State) : Host.Outcome State Fault Refusal := .next (endLabel .singleInt s)

/-- LTYPE_INT2 (R102): the payload is two integers. -/
def execLtypeInt2 (s : State) : Host.Outcome State Fault Refusal := .next (endLabel .intPair s)

/-- LTYPE_CHAR (R103): the payload is raw bytes. -/
def execLtypeChar (s : State) : Host.Outcome State Fault Refusal := .next (endLabel .char s)

/-- LAPPEND (R104): store one label byte. -/
def execLappend (b : Byte) (s : State) : Host.Outcome State Fault Refusal := .next (appendLabel b s)

/-- LOVF (R105): abort the packet; the byte is consumed and dropped. -/
def execLovf (_b : Byte) (s : State) : Host.Outcome State Fault Refusal :=
  .next (raise .overflowLabel s)

end Sys2Proof.Machine
end

