-- ==== Sys2Proof/Machine/Payload.lean ====
section
/-! DEFINITION. The operations in state CollectingPayload (42_payload.md): PEND, PAPPEND and POVF. -/

namespace Sys2Proof.Machine

/-- PEND (R111): complete the packet and deliver it. -/
def execPend (s : State) : Host.Outcome State Fault Refusal := .next (deliver s)

/-- PAPPEND (R112): store one payload byte. -/
def execPappend (b : Byte) (s : State) : Host.Outcome State Fault Refusal := .next (appendPayload b s)

/-- POVF (R113): abort the packet; the byte is consumed and dropped. -/
def execPovf (_b : Byte) (s : State) : Host.Outcome State Fault Refusal :=
  .next (raise .overflowPayload s)

end Sys2Proof.Machine
end

