-- ==== Sys2Proof/Machine/Dispatch.lean ====
section
/-! DEFINITION. The meaning of every operation of the opcode table, one arm each. -/

namespace Sys2Proof.Machine

/-- What an operation does to the state; its input has been consumed already (`step`). -/
def exec (i : Instr) (s : State) : Host.Outcome State Fault Refusal :=
  match i with
  | .reset => Sys2Proof.Machine.execReset s
  | .hold => Sys2Proof.Machine.execHold s
  | .sync => Sys2Proof.Machine.execSync s
  | .noise b => Sys2Proof.Machine.execNoise b s
  | .ltypeInt => Sys2Proof.Machine.execLtypeInt s
  | .ltypeInt2 => Sys2Proof.Machine.execLtypeInt2 s
  | .ltypeChar => Sys2Proof.Machine.execLtypeChar s
  | .lappend b => Sys2Proof.Machine.execLappend b s
  | .lovf b => Sys2Proof.Machine.execLovf b s
  | .pend => Sys2Proof.Machine.execPend s
  | .pappend b => Sys2Proof.Machine.execPappend b s
  | .povf b => Sys2Proof.Machine.execPovf b s
  | .decode32 b0 b1 b2 b3 => Sys2Proof.Machine.execDecode32 b0 b1 b2 b3 s
  | .unmarshal t p => Sys2Proof.Machine.execUnmarshal t p s
  | .encode32 v => Sys2Proof.Machine.execEncode32 v s

end Sys2Proof.Machine
end

