-- ==== Sys2Proof/Machine/Placing.lean ====
section
/-! DEFINITION. Placing an operation before the machine: the input, the state register and, where the selection
needs it, the counter that make the next step select it (log entry 12). -/

namespace Sys2Proof.Machine

/-- A counter at its maximum, or empty. -/
def placeCount (cap : Nat) (hcap : 0 < cap) (full : Bool) : Fin cap :=
  if full then ⟨cap - 1, Nat.sub_lt hcap Nat.one_pos⟩ else ⟨0, hcap⟩

/-- The counter of the field being collected set to its maximum or emptied. -/
def placeField (s : State) (full : Bool) : State :=
  match s.st with
  | .idle => s
  | .collectingLabel => { s with llen := placeCount Config.capLabel (by decide) full }
  | .collectingPayload => { s with plen := placeCount Config.capPayload (by decide) full }

/-- The input of a selection put before the others, and its state in the state register. -/
def placeInput (s : State) (x : Selection) : State :=
  { s with inputs := { rst := x.rst, rx := x.rx } :: s.inputs, st := x.st }

/-- The state in which the next step runs the operation of the selection `x`; the counter is touched only where it
would select another. -/
def placeSelection (s : State) (x : Selection) : State :=
  if selected (placeInput s x) = decode x then placeInput s x else placeField (placeInput s x) x.full

/-- The state in which the next step runs the operation of the word `n`. -/
def placeWord (s : State) (n : Nat) : State :=
  if n < 8192 then
    match Selection.ofWord (BitVec.ofNat 13 n) with
    | .error _ => s
    | .ok x => placeSelection s x
  else s

end Sys2Proof.Machine
end

