-- ==== Sys2Proof/Machine/Step.lean ====
section
/-! DEFINITION. One step of the machine (44_stream.md R135), and how the host places an operation to be run next. -/

namespace Sys2Proof.Machine

/-- One step: the next input is consumed and the operation it selects is performed (R62, R135). -/
def step (s : State) : Host.Outcome State Fault Refusal := exec (selected s) (popInput s)

/-- `s` with the operation of a word of the opcode table placed so that the very next step runs it: the input it
takes goes to the front of the inputs, and the state register and the counter get the values that select it (log
entry 12). A word that is no decode word places nothing. -/
def State.withFetchWord (s : State) (nbits w : Nat) : State := placeWord s (tableNat nbits w)

end Sys2Proof.Machine
end

