-- ==== Sys2Proof/Machine/Abstract.lean ====
section
/-! DEFINITION. The abstract view of the state (10_state.md R26) and the step of 44_stream.md R135 over it: the clear
machine that the register machine is held against. -/

namespace Sys2Proof.Machine

/-- `DecoderState` of R26. -/
inductive DecoderState where
  | idle
  | collectingLabel (label : Bytes)
  | collectingPayload (label : Bytes) (ptype : PType) (payload : Bytes)
deriving DecidableEq, Repr

/-- The step of the abstract machine: the next state and the event, if any (R135 with the effects of R91, R92, R101
to R105, R111 to R113, R136 and R180). -/
def DecoderState.step (d : DecoderState) (x : Input) : DecoderState × Option Event :=
  if x.rst then (.idle, none)
  else
    match x.rx with
    | none => (d, none)
    | some b =>
      match d with
      | .idle => if b = Config.mStart then (.collectingLabel [], none) else (.idle, some (.notice b))
      | .collectingLabel l =>
        if b = Config.mInt then (.collectingPayload l .singleInt [], none)
        else if b = Config.mInt2 then (.collectingPayload l .intPair [], none)
        else if b = Config.mChar then (.collectingPayload l .char [], none)
        else if l.length < Config.lmax then (.collectingLabel (l ++ [b]), none)
        else (.idle, some (.overflow .label))
      | .collectingPayload l t p =>
        if b = Config.mEnd then (.idle, some (.packet l t p (unmarshalView t p)))
        else if p.length < Config.pmax then (.collectingPayload l t (p ++ [b]), none)
        else (.idle, some (.overflow .payload))

/-- `Run` of R138 over the abstract machine: the final state and the events in step order. -/
def DecoderState.run (d : DecoderState) : List Input → DecoderState × List Event
  | [] => (d, [])
  | x :: rest =>
    let (d1, e) := d.step x
    let (d2, es) := DecoderState.run d1 rest
    (d2, e.toList ++ es)

/-- The abstract view of a state (R26). -/
def absView (s : State) : DecoderState :=
  match s.st with
  | .idle => .idle
  | .collectingLabel => .collectingLabel (labelOf s)
  | .collectingPayload => .collectingPayload (labelOf s) s.ptype (payloadOf s)

end Sys2Proof.Machine
end

