-- ==== Sys2Proof/Machine/Ports.lean ====
section
/-! DEFINITION. The output signals of a step (10_state.md section 3). They are a function of the state and the input
of the step (92_eei_decisions.md D1), not state (R36); a signal that is not to be read has no value (log entry 15). -/

namespace Sys2Proof.Machine

/-- The code of a payload type (R22). -/
def PType.code : PType → BitVec 2
  | .singleInt => 0#2
  | .intPair => 1#2
  | .char => 2#2
  | .charPair => 3#2

/-- `pkt_ints`, the tag of the integer view (R33, R123). -/
def IntView.tag : IntView → BitVec 2
  | .noInts => 0#2
  | .one _ => 1#2
  | .two _ _ => 2#2
  | .lenMismatch => 3#2

/-- `pkt_v1` (R123). -/
def IntView.first : IntView → Option U32
  | .noInts => none
  | .one v1 => some v1
  | .two v1 _ => some v1
  | .lenMismatch => none

/-- `pkt_v2` (R123). -/
def IntView.second : IntView → Option U32
  | .noInts => none
  | .one _ => none
  | .two _ v2 => some v2
  | .lenMismatch => none

/-- `ovf_which` (R33). -/
def Which.code : Which → BitVec 1
  | .label => 0#1
  | .payload => 1#1

/-- The output signals of one step (R32, R33, R34); none where a signal is not to be read. -/
structure Ports where
  ntcValid   : Bool
  ntcByte    : Option Byte
  pktValid   : Bool
  pktType    : Option (BitVec 2)
  pktLlen    : Option (BitVec Config.lenw)
  pktLabel   : Option Bytes
  pktPlen    : Option (BitVec Config.lenw)
  pktPayload : Option Bytes
  pktInts    : Option (BitVec 2)
  pktV1      : Option U32
  pktV2      : Option U32
  ovfValid   : Bool
  ovfWhich   : Option (BitVec 1)
  stOut      : BitVec 2
deriving DecidableEq, Repr

/-- The signals of a step with no event: every strobe 0, `st_out` the state before the step (R34). -/
def quietPorts (st : St) : Ports :=
  { ntcValid := false, ntcByte := none, pktValid := false, pktType := none, pktLlen := none, pktLabel := none,
    pktPlen := none, pktPayload := none, pktInts := none, pktV1 := none, pktV2 := none, ovfValid := false,
    ovfWhich := none, stOut := st.code }

/-- The signals of a step in state `st` that emits the event, if any. -/
def portsOf (st : St) (e : Option Event) : Ports :=
  match e with
  | none => quietPorts st
  | some (.notice b) => { quietPorts st with ntcValid := true, ntcByte := some b }
  | some (.overflow which) => { quietPorts st with ovfValid := true, ovfWhich := some which.code }
  | some (.packet l t p v) =>
    { quietPorts st with
      pktValid := true, pktType := some (PType.code t), pktLlen := some (BitVec.ofNat Config.lenw l.length),
      pktLabel := some l, pktPlen := some (BitVec.ofNat Config.lenw p.length), pktPayload := some p,
      pktInts := some v.tag, pktV1 := v.first, pktV2 := v.second }

/-- The event that the next step emits: what it adds to the history. -/
def emitted (s : State) : Option Event :=
  match step s with
  | .next t => (t.events.drop s.events.length).head?
  | .fault _ => none
  | .refused _ => none

/-- The output signals during the next step. -/
def ports (s : State) : Ports := portsOf s.st (emitted s)

end Sys2Proof.Machine
end

