-- ==== Sys2Proof/Machine/Wire.lean ====
section
/-! DEFINITION. Packets on the wire: the notice image, the sender's encoders as reference functions
(30_encoding.md sections 3 and 5), and the output streams as projections of the event history (20_memory.md R51). -/

namespace Sys2Proof.Machine

/-- The type marker of a payload type; CharPair shares the CHAR marker (R67, R68). -/
def typeMarker : PType → Byte
  | .singleInt => Config.mInt
  | .intPair => Config.mInt2
  | .char => Config.mChar
  | .charPair => Config.mChar

/-- The type that the decoder reports for a packet sent with a type: Char for CharPair (R68, R141). -/
def reportedType : PType → PType
  | .singleInt => .singleInt
  | .intPair => .intPair
  | .char => .char
  | .charPair => .char

/-- Format P: START, label, type marker, payload, END (R65). -/
def encodePacket (label : Bytes) (t : PType) (payload : Bytes) : Bytes :=
  [Config.mStart] ++ label ++ [typeMarker t] ++ payload ++ [Config.mEnd]

/-- `EncodeSingleInt` (R74). -/
def encodeSingleInt (label : Bytes) (value : U32) : Bytes :=
  encodePacket label .singleInt (encode32Bytes value)

/-- `EncodeIntPair` (R75). -/
def encodeIntPair (label : Bytes) (v1 v2 : U32) : Bytes :=
  encodePacket label .intPair (encode32Bytes v1 ++ encode32Bytes v2)

/-- `EncodeChar` (R76). -/
def encodeChar (label data : Bytes) : Bytes := encodePacket label .char data

/-- `EncodeCharPair` (R77). -/
def encodeCharPair (label : Bytes) (c1 c2 : Byte) : Bytes := encodePacket label .charPair [c1, c2]

/-- `EncodeError` (R78). -/
def encodeError (message : Bytes) : Bytes := encodeChar Config.errLabel message

/-- `NoticeWire(b)`, the 7 bytes of the notice for an offending byte (R72). -/
def noticeWire (b : Byte) : Bytes :=
  [Config.mStart] ++ Config.errLabel ++ [Config.mChar] ++ [b] ++ [Config.mEnd]

/-- Decodable: the label and the payload fit, the label holds no type marker and the payload no END (R79). -/
def decodable (label payload : Bytes) : Bool :=
  decide (label.length ≤ Config.lmax) && label.all (fun b => !isTypeMarker b)
    && decide (payload.length ≤ Config.pmax) && payload.all (fun b => b != Config.mEnd)

/-- What an event puts on the tx side of the channel (R32). -/
def Event.tx : Event → Bytes
  | .notice b => noticeWire b
  | .packet _ _ _ _ => []
  | .overflow _ => []

/-- The tx notice stream of an event history: every notice image, in order (R32, R138). -/
def txStream (events : List Event) : Bytes := events.flatMap Event.tx

/-- The event goes to the caller and not to the channel (R157). -/
def Event.toCaller : Event → Bool
  | .notice _ => false
  | .packet _ _ _ _ => true
  | .overflow _ => true

/-- The caller's stream of an event history: its packets and overflows, in order (R138). -/
def callerStream (events : List Event) : List Event := events.filter Event.toCaller

end Sys2Proof.Machine
end

