-- ==== Sys2Proof/Safety.lean ====
section
/-! DEFINITION. What the claims are stated in: the invariants of 10_state.md R25, canonical Idle, runs over inputs
(44_stream.md R138), and states that differ only in what no port exposes (10_state.md R35). -/

namespace Sys2Proof.Machine

/-- Canonical Idle, the reset values of the registers (R27). -/
abbrev State.canonicalIdle (s : State) : Prop :=
  s.st = .idle ∧ s.ptype = .singleInt ∧ s.llen = 0 ∧ s.plen = 0

/-- The register invariants of R25. The bounds on `llen` and `plen` are in their types. -/
abbrev State.regInv (s : State) : Prop :=
  (s.st = .idle → s.llen = 0 ∧ s.plen = 0 ∧ s.ptype = .singleInt)
    ∧ (s.st = .collectingLabel → s.plen = 0 ∧ s.ptype = .singleInt)
    ∧ (s.st = .collectingPayload → s.ptype ≠ .charPair)

/-- Both buffers are in canonical form and hold no cell outside their index ranges (R40). -/
abbrev State.memInv (s : State) : Prop := Memory.wf Config.lmax s.lbuf ∧ Memory.wf Config.pmax s.pbuf

/-- The invariant of the machine. -/
abbrev State.Inv (s : State) : Prop := s.regInv ∧ s.memInv

/-- `s` with an input presented before all others. -/
def present (x : Input) (s : State) : State := { s with inputs := x :: s.inputs }

/-- `s` with a sequence of inputs presented before all others. -/
def feed (is : List Input) (s : State) : State := { s with inputs := is ++ s.inputs }

/-- The inputs of a byte stream with no gap and no reset (`RunBytes`, R138). -/
def bytesIn (bs : Bytes) : List Input := bs.map byteInput

/-- Exactly the inputs `is` are run from `s`, one step each (`Run`, R138). -/
def runOver (is : List Input) (s : State) : Host.Outcome State Fault Refusal :=
  Host.Core.run Sys2Proof.core is.length (feed is s)

/-- The two states agree on everything but buffer cells at or above the counters and the result field of the pure
functions: on the registers, the label and payload values, the inputs and the events (R35). -/
abbrev sameVisible (s t : State) : Prop :=
  s.st = t.st ∧ s.ptype = t.ptype ∧ s.llen = t.llen ∧ s.plen = t.plen ∧ labelOf s = labelOf t
    ∧ payloadOf s = payloadOf t ∧ s.inputs = t.inputs ∧ s.events = t.events

end Sys2Proof.Machine
end

