-- ==== Sys2Proof/Certificates/Slice0/Obligations.lean ====
section
/-! DEFINITION. The statements about the model, one `Prop` each. -/

open Sys2Proof Sys2Proof.Machine

/-! ## Reset and the invariant -/

/-- The reset values of the table of 10_state.md section 1 (R20, R27): the four registers are 0 and no event has been
emitted. The cells, which the spec leaves unspecified, are not spoken of. -/
def Obligations.ResetStateIsCanonicalIdle : Prop :=
  State.reset.st = .idle ∧ State.reset.ptype = .singleInt ∧ State.reset.llen = 0 ∧ State.reset.plen = 0
    ∧ State.reset.events = []

/-- The reset state satisfies the invariants (44_stream.md R143, which the spec marks as derived). -/
def Obligations.InvariantHoldsAtReset : Prop := State.reset.Inv

/-- Every step keeps the invariants of 10_state.md R25 and the canonical form of both buffers, from every state that
satisfies them (44_stream.md R143, which the spec marks as derived). -/
def Obligations.StepKeepsInvariant : Prop :=
  ∀ s t : State, s.Inv → step s = .next t → t.Inv

/-! ## Decode and encode -/

/-- Decode and encode agree: the word of a well-formed operation, read back through the decoder of the opcode table,
gives the operation with its operand. Only the pure functions of format F have no word. Bits 12 to 10 of a word are
the model's own (log entry 10). -/
def Obligations.EncodedOperationDecodesBack : Prop :=
  (∀ (i : Instr) (w : SelWord), i.wellFormed = true → encode i = some w → decodeTableWord 16 w.toNat = some i)
    ∧ ∀ i : Instr, encode i = none ↔
        (∃ b0 b1 b2 b3, i = .decode32 b0 b1 b2 b3) ∨ (∃ t p, i = .unmarshal t p) ∨ ∃ v, i = .encode32 v

/-- Whatever a word decodes to is a well-formed operation that has a word of its own, and every decode word whose state
code is not 3 decodes (30_encoding.md R64). Bits 12 to 10 of a word are the model's own (log entry 10). -/
def Obligations.DecodedOperationIsWellFormed : Prop :=
  (∀ (w : SelWord) (i : Instr), decodeWord w = .ok i → i.wellFormed = true ∧ ∃ w', encode i = some w')
    ∧ ∀ w : SelWord, w.extractLsb' 8 2 ≠ 3#2 → ∃ i, decodeWord w = .ok i

/-- The words of 95_test_vectors.md section 2.6, state code and byte written out, decode as its table says. A full
counter is bit 12 of the model's word (log entry 10). -/
def Obligations.DecodeWordsOfTheSpec : Prop :=
  decodeTableWord 16 0x03C = some .sync
    ∧ decodeTableWord 16 0x03E = some (.noise 0x3E#8)
    ∧ decodeTableWord 16 0x000 = some (.noise 0x00#8)
    ∧ decodeTableWord 16 0x0FF = some (.noise 0xFF#8)
    ∧ decodeTableWord 16 0x17C = some .ltypeInt
    ∧ decodeTableWord 16 0x17E = some .ltypeInt2
    ∧ decodeTableWord 16 0x140 = some .ltypeChar
    ∧ decodeTableWord 16 0x13C = some (.lappend 0x3C#8)
    ∧ decodeTableWord 16 0x13E = some (.lappend 0x3E#8)
    ∧ decodeTableWord 16 (0x1000 + 0x161) = some (.lovf 0x61#8)
    ∧ decodeTableWord 16 0x23E = some .pend
    ∧ decodeTableWord 16 0x27C = some (.pappend 0x7C#8)
    ∧ decodeTableWord 16 0x23C = some (.pappend 0x3C#8)
    ∧ decodeTableWord 16 (0x1000 + 0x262) = some (.povf 0x62#8)

/-- The state code 3, which `st` never holds (10_state.md R21), is refused by name, and so is a number wider than a
word. -/
def Obligations.ReservedWordsAreRefused : Prop :=
  (∀ w : SelWord, w.extractLsb' 8 2 = 3#2 → decodeWord w = .error .stateCodeThree)
    ∧ (∀ n : Nat, 8192 ≤ n → decodeNat n = .error .wordTooWide)
    ∧ decodeTableWord 16 0x300 = none

/-- The decoder agrees with the match, mask, priority and condition columns of 30_encoding.md R63: exactly one row
applies to each decode word with a legal state code, and it is the decoded operation. -/
def Obligations.OpcodeTableSelectsDecodedOperation : Prop :=
  ∀ (st : St) (b : Byte) (full : Bool),
    tableSelect (st.code ++ b) full = [decode { rst := false, rx := some b, st := st, full := full }]

/-- The operation table of 30_encoding.md R62, row by row; an input selects no pure function. -/
def Obligations.StepSelectsByOperationTable : Prop :=
  (∀ (s : State) (rx : Option Byte), selected (present { rst := true, rx := rx } s) = .reset)
    ∧ (∀ s : State, selected (present { rst := false, rx := none } s) = .hold)
    ∧ (∀ s : State, s.st = .idle → selected (present (byteInput Config.mStart) s) = .sync)
    ∧ (∀ (s : State) (b : Byte), s.st = .idle → b ≠ Config.mStart →
        selected (present (byteInput b) s) = .noise b)
    ∧ (∀ s : State, s.st = .collectingLabel →
        selected (present (byteInput Config.mInt) s) = .ltypeInt
          ∧ selected (present (byteInput Config.mInt2) s) = .ltypeInt2
          ∧ selected (present (byteInput Config.mChar) s) = .ltypeChar)
    ∧ (∀ (s : State) (b : Byte), s.st = .collectingLabel →
        b ≠ Config.mInt → b ≠ Config.mInt2 → b ≠ Config.mChar →
        (s.llen.val < Config.lmax → selected (present (byteInput b) s) = .lappend b)
          ∧ (s.llen.val = Config.lmax → selected (present (byteInput b) s) = .lovf b))
    ∧ (∀ s : State, s.st = .collectingPayload → selected (present (byteInput Config.mEnd) s) = .pend)
    ∧ (∀ (s : State) (b : Byte), s.st = .collectingPayload → b ≠ Config.mEnd →
        (s.plen.val < Config.pmax → selected (present (byteInput b) s) = .pappend b)
          ∧ (s.plen.val = Config.pmax → selected (present (byteInput b) s) = .povf b))
    ∧ ∀ s : State, (∀ b0 b1 b2 b3, selected s ≠ .decode32 b0 b1 b2 b3) ∧ (∀ t p, selected s ≠ .unmarshal t p)
        ∧ ∀ v, selected s ≠ .encode32 v

/-- A step consumes the next input and performs the operation that the input, the state register and the room select;
it reads no input further on. With no input waiting nothing is presented and nothing changes: that clause is the
model's choice (log entry 1). -/
def Obligations.StepRunsSelectedOperation : Prop :=
  (∀ (s : State) (x : Input) (rest : List Input), s.inputs = x :: rest →
      step s = exec (decode { rst := x.rst, rx := x.rx, st := s.st, full := fieldFull s }) { s with inputs := rest })
    ∧ ∀ s : State, s.inputs = [] → step s = .next s

/-- A word of the opcode table placed before the machine is what the very next step runs, and nothing but the input,
the state register and the counters is touched in placing it. The placing is the model's own (log entry 12). -/
def Obligations.PlacedWordRunsNext : Prop :=
  ∀ (s : State) (nbits w : Nat) (i : Instr), decodeTableWord nbits w = some i →
    step (s.withFetchWord nbits w) = exec i (popInput (s.withFetchWord nbits w))
      ∧ (popInput (s.withFetchWord nbits w)).inputs = s.inputs
      ∧ (s.withFetchWord nbits w).ptype = s.ptype
      ∧ (s.withFetchWord nbits w).lbuf = s.lbuf
      ∧ (s.withFetchWord nbits w).pbuf = s.pbuf
      ∧ (s.withFetchWord nbits w).events = s.events
      ∧ (s.withFetchWord nbits w).fnResult = s.fnResult

/-! ## What each operation does, and all that it does -/

/-- RESET (70_reset_and_hazards.md R180, R184; the spec's own decisions D15, D20): canonical Idle whatever the state and
whatever byte comes with it, no event, every other field as it was. -/
def Obligations.ResetEntersCanonicalIdle : Prop :=
  ∀ s : State,
    exec .reset s = .next { s with st := .idle, ptype := .singleInt, llen := 0, plen := 0 }
      ∧ ∀ rx : Option Byte,
          step (present { rst := true, rx := rx } s)
              = .next { s with st := .idle, ptype := .singleInt, llen := 0, plen := 0 }
            ∧ emitted (present { rst := true, rx := rx } s) = none
            ∧ ports (present { rst := true, rx := rx } s) = quietPorts s.st

/-- HOLD (44_stream.md R136): in any state a step with `rst` low and no byte writes nothing and emits nothing, any
number of times. -/
def Obligations.HoldChangesNothing : Prop :=
  ∀ s : State,
    exec .hold s = .next s
      ∧ selected (present { rst := false, rx := none } s) = .hold
      ∧ step (present { rst := false, rx := none } s) = .next s
      ∧ emitted (present { rst := false, rx := none } s) = none
      ∧ ∀ n : Nat, runOver (List.replicate n { rst := false, rx := none }) s = .next s

/-- SYNC (40_idle.md R91), with its corner cases: the counter is 0 already by the Idle invariant, a second START is a
label byte, no cell is cleared. -/
def Obligations.SyncBeginsPacket : Prop :=
  ∀ s : State,
    exec .sync s = .next { s with llen := 0, st := .collectingLabel }
      ∧ (s.st = .idle →
          selected (present (byteInput Config.mStart) s) = .sync
            ∧ step (present (byteInput Config.mStart) s) = .next { s with llen := 0, st := .collectingLabel }
            ∧ emitted (present (byteInput Config.mStart) s) = none
            ∧ (s.regInv → s.llen = 0 ∧ s.plen = 0 ∧ s.ptype = .singleInt))
      ∧ selected (present (byteInput Config.mStart) { s with llen := 0, st := .collectingLabel })
          = .lappend Config.mStart
      ∧ decodeTableWord 16 0x03C = some .sync

/-- NOISE (40_idle.md R92; the form of the notice is the spec's own decision D11): one notice holding the byte, seven
bytes on the tx side, and every other field as it was. -/
def Obligations.NoiseReportsOffendingByte : Prop :=
  ∀ (s : State) (b : Byte),
    exec (.noise b) s = .next { s with events := s.events ++ [.notice b] }
      ∧ (s.st = .idle → b ≠ Config.mStart →
          step (present (byteInput b) s) = .next { s with events := s.events ++ [.notice b] }
            ∧ emitted (present (byteInput b) s) = some (.notice b)
            ∧ (ports (present (byteInput b) s)).ntcValid = true
            ∧ (ports (present (byteInput b) s)).ntcByte = some b
            ∧ (ports (present (byteInput b) s)).pktValid = false
            ∧ (ports (present (byteInput b) s)).ovfValid = false)
      ∧ txStream (s.events ++ [.notice b])
          = txStream s.events ++ [0x3C#8, 0x45#8, 0x72#8, 0x72#8, 0x40#8, b, 0x3E#8]

/-- LTYPE_INT, LTYPE_INT2, LTYPE_CHAR (41_label.md R101 to R103; that INT2 ends the label is the spec's decision D6,
that an empty label is accepted its decision D8): the type is recorded, the payload counter cleared, the label kept;
also at an empty and at a full label. -/
def Obligations.TypeMarkersEndLabel : Prop :=
  ∀ s : State,
    exec .ltypeInt s = .next { s with st := .collectingPayload, ptype := .singleInt, plen := 0 }
      ∧ exec .ltypeInt2 s = .next { s with st := .collectingPayload, ptype := .intPair, plen := 0 }
      ∧ exec .ltypeChar s = .next { s with st := .collectingPayload, ptype := .char, plen := 0 }
      ∧ (s.st = .collectingLabel →
          step (present (byteInput 0x7C#8) s)
              = .next { s with st := .collectingPayload, ptype := .singleInt, plen := 0 }
            ∧ step (present (byteInput 0x7E#8) s)
              = .next { s with st := .collectingPayload, ptype := .intPair, plen := 0 }
            ∧ step (present (byteInput 0x40#8) s)
              = .next { s with st := .collectingPayload, ptype := .char, plen := 0 })

/-- LAPPEND (41_label.md R104): with room the byte goes to the cell at the counter and the counter grows by one; no
other cell and no other field changes and nothing is emitted. Any byte that is no type marker is stored, START, END,
0x00 and 0x80 upward included; at the new counter `LMAX` the next such byte is LOVF and a type marker still ends the
label; with no byte the state is held. -/
def Obligations.LappendStoresLabelByte : Prop :=
  ∀ (s : State) (b : Byte), Memory.wf Config.lmax s.lbuf → s.llen.val < Config.lmax →
    ∃ t : State, exec (.lappend b) s = .next t
      ∧ t.st = s.st ∧ t.ptype = s.ptype ∧ t.plen = s.plen ∧ t.pbuf = s.pbuf ∧ t.inputs = s.inputs
      ∧ t.events = s.events ∧ t.fnResult = s.fnResult
      ∧ t.llen.val = s.llen.val + 1
      ∧ (∀ a : Nat, t.lbuf.read a = if a = s.llen.val then b else s.lbuf.read a)
      ∧ labelOf t = labelOf s ++ [b]
      ∧ (isTypeMarker b = false → decodeTableWord 16 (0x100 + b.toNat) = some (.lappend b))
      ∧ (s.st = .collectingLabel → isTypeMarker b = false →
          selected (present (byteInput b) s) = .lappend b
            ∧ step (present (byteInput b) s) = .next t
            ∧ emitted (present (byteInput b) s) = none
            ∧ t.llen.val ≤ Config.lmax
            ∧ (t.llen.val = Config.lmax →
                (∀ c : Byte, isTypeMarker c = false → selected (present (byteInput c) t) = .lovf c)
                  ∧ selected (present (byteInput Config.mInt) t) = .ltypeInt
                  ∧ selected (present (byteInput Config.mInt2) t) = .ltypeInt2
                  ∧ selected (present (byteInput Config.mChar) t) = .ltypeChar)
            ∧ step (present { rst := false, rx := none } t) = .next t)
      ∧ (isTypeMarker Config.mStart = false ∧ isTypeMarker Config.mEnd = false ∧ isTypeMarker 0x00#8 = false
          ∧ ∀ c : Byte, 0x80#8 ≤ c → isTypeMarker c = false)

/-- LOVF and POVF (41_label.md R105, 42_payload.md R113; to abort is the spec's own decision D9): the overflow goes to
the caller, the block enters canonical Idle, no cell is written, nothing goes out on the tx side. -/
def Obligations.OverflowAbortsPacket : Prop :=
  ∀ (s : State) (b : Byte),
    exec (.lovf b) s = .next { s with
        st := .idle, ptype := .singleInt, llen := 0, plen := 0, events := s.events ++ [.overflow .label] }
      ∧ exec (.povf b) s = .next { s with
        st := .idle, ptype := .singleInt, llen := 0, plen := 0, events := s.events ++ [.overflow .payload] }
      ∧ (s.st = .collectingLabel → isTypeMarker b = false → s.llen.val = Config.lmax →
          step (present (byteInput b) s) = exec (.lovf b) s
            ∧ (ports (present (byteInput b) s)).ovfValid = true
            ∧ (ports (present (byteInput b) s)).ovfWhich = some 0#1)
      ∧ (s.st = .collectingPayload → b ≠ Config.mEnd → s.plen.val = Config.pmax →
          step (present (byteInput b) s) = exec (.povf b) s
            ∧ (ports (present (byteInput b) s)).ovfValid = true
            ∧ (ports (present (byteInput b) s)).ovfWhich = some 1#1)
      ∧ (∀ which : Which, txStream (s.events ++ [.overflow which]) = txStream s.events)

/-- PEND (42_payload.md R111; empty fields and wrong lengths are the spec's decisions D8 and D13): the packet with the
label and payload held before the step and its integer view, then canonical Idle; no cell is written. -/
def Obligations.PendDeliversPacket : Prop :=
  ∀ s : State,
    exec .pend s = .next { s with
        st := .idle, ptype := .singleInt, llen := 0, plen := 0,
        events := s.events ++ [.packet (labelOf s) s.ptype (payloadOf s) (unmarshalView s.ptype (payloadOf s))] }
      ∧ (s.st = .collectingPayload → step (present (byteInput Config.mEnd) s) = exec .pend s)
      ∧ (labelOf s).length = s.llen.val
      ∧ (∀ k : Nat, k < s.llen.val → (labelOf s)[k]? = some (s.lbuf.read k))
      ∧ (payloadOf s).length = s.plen.val
      ∧ (∀ k : Nat, k < s.plen.val → (payloadOf s)[k]? = some (s.pbuf.read k))

/-- PAPPEND (42_payload.md R112): with room the byte goes to the cell at the counter and the counter grows by one; no
other cell and no other field changes and nothing is emitted. Every byte but END is stored, also past the length an
integer type implies; END is PEND; with no byte the state is held. -/
def Obligations.PappendStoresPayloadByte : Prop :=
  ∀ (s : State) (b : Byte), Memory.wf Config.pmax s.pbuf → s.plen.val < Config.pmax →
    ∃ t : State, exec (.pappend b) s = .next t
      ∧ t.st = s.st ∧ t.ptype = s.ptype ∧ t.llen = s.llen ∧ t.lbuf = s.lbuf ∧ t.inputs = s.inputs
      ∧ t.events = s.events ∧ t.fnResult = s.fnResult
      ∧ t.plen.val = s.plen.val + 1
      ∧ (∀ a : Nat, t.pbuf.read a = if a = s.plen.val then b else s.pbuf.read a)
      ∧ payloadOf t = payloadOf s ++ [b]
      ∧ (b ≠ Config.mEnd → decodeTableWord 16 (0x200 + b.toNat) = some (.pappend b))
      ∧ (s.st = .collectingPayload →
          (b ≠ Config.mEnd →
            selected (present (byteInput b) s) = .pappend b
              ∧ step (present (byteInput b) s) = .next t
              ∧ emitted (present (byteInput b) s) = none)
            ∧ selected (present (byteInput Config.mEnd) s) = .pend
            ∧ step (present { rst := false, rx := none } t) = .next t)

/-- `Append` (20_memory.md R45) on both buffers: where there is room it writes the one cell at the counter and adds one
to it; where there is none the operation is the overflow operation instead and no cell is written. -/
def Obligations.AppendWritesAtCounterOrOverflows : Prop :=
  ∀ (s : State) (b : Byte), s.memInv →
    (s.llen.val < Config.lmax → ∃ t : State, exec (.lappend b) s = .next t
        ∧ t.lbuf.read s.llen.val = b
        ∧ (∀ a : Nat, a ≠ s.llen.val → t.lbuf.read a = s.lbuf.read a)
        ∧ t.pbuf = s.pbuf ∧ t.llen.val = s.llen.val + 1)
      ∧ (s.llen.val = Config.lmax → exec (.lappend b) s = exec (.lovf b) s
        ∧ ∃ t : State, exec (.lappend b) s = .next t ∧ t.lbuf = s.lbuf ∧ t.pbuf = s.pbuf)
      ∧ (s.plen.val < Config.pmax → ∃ t : State, exec (.pappend b) s = .next t
        ∧ t.pbuf.read s.plen.val = b
        ∧ (∀ a : Nat, a ≠ s.plen.val → t.pbuf.read a = s.pbuf.read a)
        ∧ t.lbuf = s.lbuf ∧ t.plen.val = s.plen.val + 1)
      ∧ (s.plen.val = Config.pmax → exec (.pappend b) s = exec (.povf b) s
        ∧ ∃ t : State, exec (.pappend b) s = .next t ∧ t.lbuf = s.lbuf ∧ t.pbuf = s.pbuf)

/-- DECODE32 (43_unmarshal.md R120): the first byte is the most significant; as a number
`b0 * 16777216 + b1 * 65536 + b2 * 256 + b3`, which the spec marks as derived. The result stands in the model's own
field (log entry 3); nothing else changes. -/
def Obligations.Decode32IsBigEndian : Prop :=
  ∀ (s : State) (b0 b1 b2 b3 : Byte), ∃ v : U32,
    exec (.decode32 b0 b1 b2 b3) s = .next { s with fnResult := some (.word v) }
      ∧ v.toNat = b0.toNat * 16777216 + b1.toNat * 65536 + b2.toNat * 256 + b3.toNat
      ∧ v.extractLsb' 24 8 = b0 ∧ v.extractLsb' 16 8 = b1 ∧ v.extractLsb' 8 8 = b2 ∧ v.extractLsb' 0 8 = b3

/-- UNMARSHAL (43_unmarshal.md R122; LenMismatch is the spec's decision D13): four bytes of a SingleInt and eight of an
IntPair give their integers, any other number LenMismatch, the character types no integer. The result stands in the
model's own field (log entry 3); nothing else changes. -/
def Obligations.UnmarshalReadsIntegers : Prop :=
  ∀ (s : State) (p : Bytes),
    (∀ b0 b1 b2 b3 : Byte, exec (.unmarshal .singleInt [b0, b1, b2, b3]) s
        = .next { s with fnResult := some (.view (.one (decode32Val b0 b1 b2 b3))) })
      ∧ (p.length ≠ 4 → exec (.unmarshal .singleInt p) s = .next { s with fnResult := some (.view .lenMismatch) })
      ∧ (∀ b0 b1 b2 b3 b4 b5 b6 b7 : Byte, exec (.unmarshal .intPair [b0, b1, b2, b3, b4, b5, b6, b7]) s
        = .next { s with
            fnResult := some (.view (.two (decode32Val b0 b1 b2 b3) (decode32Val b4 b5 b6 b7))) })
      ∧ (p.length ≠ 8 → exec (.unmarshal .intPair p) s = .next { s with fnResult := some (.view .lenMismatch) })
      ∧ exec (.unmarshal .char p) s = .next { s with fnResult := some (.view .noInts) }
      ∧ exec (.unmarshal .charPair p) s = .next { s with fnResult := some (.view .noInts) }

/-- ENCODE32 (43_unmarshal.md R125): four bytes, most significant first. The result stands in the model's own field (log
entry 3); nothing else changes. -/
def Obligations.Encode32IsMostSignificantFirst : Prop :=
  ∀ (s : State) (v : U32),
    exec (.encode32 v) s = .next { s with fnResult := some (.bytes
      [v.extractLsb' 24 8, v.extractLsb' 16 8, v.extractLsb' 8 8, v.extractLsb' 0 8]) }

/-- The inverse laws of the codec (43_unmarshal.md R126, which the spec marks as derived), for the results that the two
operations return. -/
def Obligations.CodecInverseLaws : Prop :=
  (∀ (v : U32) (b0 b1 b2 b3 : Byte), encode32Bytes v = [b0, b1, b2, b3] → decode32Val b0 b1 b2 b3 = v)
    ∧ ∀ b0 b1 b2 b3 : Byte, encode32Bytes (decode32Val b0 b1 b2 b3) = [b0, b1, b2, b3]

/-! ## The machine as a whole -/

/-- The complete next-state table of 44_stream.md R137 with its events, the transitions it excludes, and the only ways
back to Idle from inside a packet. -/
def Obligations.NextStateTable : Prop :=
  ∀ s : State, ∃ t : State, step s = .next t
    ∧ (selected s = .reset → t.st = .idle ∧ emitted s = none)
    ∧ (selected s = .hold → t.st = s.st ∧ emitted s = none)
    ∧ (selected s = .sync → s.st = .idle ∧ t.st = .collectingLabel ∧ emitted s = none)
    ∧ (∀ b, selected s = .noise b → s.st = .idle ∧ t.st = .idle ∧ emitted s = some (.notice b))
    ∧ (selected s = .ltypeInt ∨ selected s = .ltypeInt2 ∨ selected s = .ltypeChar →
        s.st = .collectingLabel ∧ t.st = .collectingPayload ∧ emitted s = none)
    ∧ (∀ b, selected s = .lappend b → s.st = .collectingLabel ∧ t.st = .collectingLabel ∧ emitted s = none)
    ∧ (∀ b, selected s = .lovf b → s.st = .collectingLabel ∧ t.st = .idle ∧ emitted s = some (.overflow .label))
    ∧ (selected s = .pend → s.st = .collectingPayload ∧ t.st = .idle
        ∧ emitted s = some (.packet (labelOf s) s.ptype (payloadOf s) (unmarshalView s.ptype (payloadOf s))))
    ∧ (∀ b, selected s = .pappend b →
        s.st = .collectingPayload ∧ t.st = .collectingPayload ∧ emitted s = none)
    ∧ (∀ b, selected s = .povf b →
        s.st = .collectingPayload ∧ t.st = .idle ∧ emitted s = some (.overflow .payload))
    ∧ ¬ (s.st = .idle ∧ t.st = .collectingPayload)
    ∧ ¬ (s.st = .collectingPayload ∧ t.st = .collectingLabel)
    ∧ (s.st ≠ .idle → t.st = .idle →
        selected s = .reset ∨ selected s = .pend ∨ (∃ b, selected s = .lovf b) ∨ ∃ b, selected s = .povf b)
    ∧ (s.st ≠ .idle → (nextInput s) = byteInput Config.mStart → t.st = s.st ∨ ∃ w, emitted s = some (.overflow w))

/-- Nothing is fatal and nothing latches (60_exceptions.md R165): every state accepts every input. That a step which
reports a condition leaves canonical Idle, from which every operation of Idle is available again, is not in R165: it is
R161 and R163, which rest on the spec's own decisions D9 (an overflow aborts) and D10 (canonical Idle), on D13 for a
wrong length, and on D16 for the code that tells a condition from none (log entry 14). -/
def Obligations.NoConditionStopsTheBlock : Prop :=
  ∀ (s : State) (x : Input), ∃ t : State, step (present x s) = .next t
    ∧ t.inputs = s.inputs
    ∧ (s.regInv → causeCode (emitted (present x s)) ≠ 0 →
        t.canonicalIdle
          ∧ selected (present (byteInput Config.mStart) t) = .sync
          ∧ ∀ b : Byte, b ≠ Config.mStart → selected (present (byteInput b) t) = .noise b)

/-- At most one event per step, at the end of the history (44_stream.md R145, which the spec marks as derived; that the
history stands in the state is the model's choice, log entry 2), and at most one strobe. -/
def Obligations.StepEmitsAtMostOneEvent : Prop :=
  ∀ s t : State, step s = .next t →
    t.events = s.events ++ (emitted s).toList
      ∧ ¬ ((ports s).ntcValid = true ∧ (ports s).pktValid = true)
      ∧ ¬ ((ports s).ntcValid = true ∧ (ports s).ovfValid = true)
      ∧ ¬ ((ports s).pktValid = true ∧ (ports s).ovfValid = true)

/-- The output signals of a step (10_state.md R32 to R34, 43_unmarshal.md R123; the signals are the spec's own decisions
D11, D12, D19; the form of a signal that is not to be read is the model's choice, log entry 15). -/
def Obligations.PortsShowTheStep : Prop :=
  ∀ s : State,
    (ports s).stOut = s.st.code
      ∧ ((ports s).ntcValid = true ↔ ∃ b, selected s = .noise b)
      ∧ (∀ b, selected s = .noise b → (ports s).ntcByte = some b)
      ∧ ((ports s).ovfValid = true ↔ (∃ b, selected s = .lovf b) ∨ ∃ b, selected s = .povf b)
      ∧ (∀ b, selected s = .lovf b → (ports s).ovfWhich = some 0#1)
      ∧ (∀ b, selected s = .povf b → (ports s).ovfWhich = some 1#1)
      ∧ ((ports s).pktValid = true ↔ selected s = .pend)
      ∧ (selected s = .pend →
          (ports s).pktType = some (PType.code s.ptype)
            ∧ (ports s).pktLabel = some (labelOf s)
            ∧ (ports s).pktPayload = some (payloadOf s)
            ∧ (∃ n, (ports s).pktLlen = some n ∧ n.toNat = s.llen.val)
            ∧ (∃ n, (ports s).pktPlen = some n ∧ n.toNat = s.plen.val)
            ∧ (ports s).pktInts = some (unmarshalView s.ptype (payloadOf s)).tag
            ∧ (ports s).pktV1 = (unmarshalView s.ptype (payloadOf s)).first
            ∧ (ports s).pktV2 = (unmarshalView s.ptype (payloadOf s)).second)

/-- Counter arithmetic (43_unmarshal.md R128): in one step a counter stays, is cleared, or grows by one, the latter only
by its append and only below its maximum; it fits in `LENW` bits and never wraps. -/
def Obligations.CountersNeverWrap : Prop :=
  ∀ s t : State, step s = .next t →
    (t.llen = s.llen ∨ t.llen = 0
        ∨ (t.llen.val = s.llen.val + 1 ∧ s.llen.val < Config.lmax ∧ ∃ b, selected s = .lappend b))
      ∧ (t.plen = s.plen ∨ t.plen = 0
        ∨ (t.plen.val = s.plen.val + 1 ∧ s.plen.val < Config.pmax ∧ ∃ b, selected s = .pappend b))
      ∧ t.llen.val ≤ Config.capLabel - 1 ∧ t.plen.val ≤ Config.capPayload - 1
      ∧ (BitVec.ofNat Config.lenw t.llen.val).toNat = t.llen.val
      ∧ (BitVec.ofNat Config.lenw t.plen.val).toNat = t.plen.val

/-- The frame of every step on the buffers (20_memory.md section 1, 10_state.md R23, R24): a cell changes only by the
append to its buffer, at the counter, to the byte received; and no step writes the result field of the pure
functions, which is the model's own (log entry 3). -/
def Obligations.CellsChangeOnlyByAppend : Prop :=
  ∀ s t : State, s.memInv → step s = .next t →
    (∀ a : Nat, t.lbuf.read a ≠ s.lbuf.read a →
        ∃ b, selected s = .lappend b ∧ a = s.llen.val ∧ t.lbuf.read a = b)
      ∧ (∀ a : Nat, t.pbuf.read a ≠ s.pbuf.read a →
        ∃ b, selected s = .pappend b ∧ a = s.plen.val ∧ t.pbuf.read a = b)
      ∧ t.fnResult = s.fnResult

/-- The recorded type (10_state.md R22, 42_payload.md R111): only a type marker in CollectingLabel writes another type
than SingleInt, each its own, and every step that enters Idle from a packet clears it; CharPair is never written. -/
def Obligations.PayloadTypeIsWrittenByMarkersOnly : Prop :=
  ∀ s t : State, step s = .next t →
    (t.ptype = s.ptype
        ∨ (selected s = .ltypeInt ∧ t.ptype = .singleInt)
        ∨ (selected s = .ltypeInt2 ∧ t.ptype = .intPair)
        ∨ (selected s = .ltypeChar ∧ t.ptype = .char)
        ∨ (t.st = .idle ∧ t.ptype = .singleInt))
      ∧ (s.st ≠ .idle → t.st = .idle → t.canonicalIdle)
      ∧ (s.ptype ≠ .charPair → t.ptype ≠ .charPair)

/-- Two buffers in canonical form that read alike at every index are the same data. The form is the model's own (log
entry 4). -/
def Obligations.CanonicalBuffersThatReadAlikeAreEqual : Prop :=
  ∀ (n : Nat) (m m' : Memory), m.wf n → m'.wf n → (∀ a : Nat, m.read a = m'.read a) → m = m'

/-- The register machine refines the abstract machine of 10_state.md R26 (which the spec marks as derived) under the
step of 44_stream.md R135: after any inputs the abstract views agree and the same events have been emitted. -/
def Obligations.RegisterMachineRefinesAbstractMachine : Prop :=
  ∀ (is : List Input) (s : State), s.memInv →
    ∃ t : State, runOver is s = .next t
      ∧ absView t = ((absView s).run is).1
      ∧ t.events = s.events ++ ((absView s).run is).2

/-- Hidden state (10_state.md R35, which the spec marks as derived): two states that differ only in cells at or above
their counters stay so, and emit the same events, whatever the inputs. So no output rests on what an unwritten cell
reads as (log entry 4). -/
def Obligations.HiddenCellsAreUnobservable : Prop :=
  ∀ (is : List Input) (s t : State), s.memInv → t.memInv → sameVisible s t →
    ∃ s' t' : State, runOver is s = .next s' ∧ runOver is t = .next t' ∧ sameVisible s' t'

/-- Chunking (44_stream.md R138 and R139, the latter marked as derived): a run is its first step and the run of the
rest, a run over two sequences is the run over the second from where the first ends, and a step without a byte can be
put in or taken out anywhere. -/
def Obligations.ChunkingIsInvisible : Prop :=
  (∀ (x : Input) (is : List Input) (s t : State), step (present x s) = .next t →
      runOver (x :: is) s = runOver is t)
    ∧ (∀ (a b : List Input) (s t : State), runOver a s = .next t → runOver (a ++ b) s = runOver b t)
    ∧ ∀ (a b : List Input) (s : State), runOver (a ++ [{ rst := false, rx := none }] ++ b) s = runOver (a ++ b) s

/-- Every noise byte gets its own notice, in order, and nothing else changes (60_exceptions.md R164, 40_idle.md R92). -/
def Obligations.EachNoiseByteGetsItsNotice : Prop :=
  ∀ (bs : Bytes) (s : State), s.st = .idle → (∀ b ∈ bs, b ≠ Config.mStart) →
    runOver (bytesIn bs) s = .next { s with events := s.events ++ bs.map .notice }

/-- Round trip (44_stream.md R141, which the spec marks as derived): from canonical Idle the bytes of a decodable packet
give exactly that packet, with CharPair reported as Char, and canonical Idle again; nothing after them is read. -/
def Obligations.DecodablePacketRoundTrips : Prop :=
  ∀ (s : State) (l : Bytes) (ty : PType) (p : Bytes),
    s.canonicalIdle → s.memInv → decodable l p = true →
    ∃ t : State, runOver (bytesIn (encodePacket l ty p)) s = .next t
      ∧ t.canonicalIdle ∧ t.memInv ∧ t.inputs = s.inputs
      ∧ t.events = s.events ++ [.packet l (reportedType ty) p (unmarshalView (reportedType ty) p)]

/-- A concatenation of decodable packets gives those packets in order, and canonical Idle (44_stream.md R141, which the
spec marks as derived). -/
def Obligations.PacketSequenceRoundTrips : Prop :=
  ∀ (packets : List (Bytes × PType × Bytes)) (s : State),
    s.canonicalIdle → s.memInv → (∀ q ∈ packets, decodable q.1 q.2.2 = true) →
    ∃ t : State, runOver (bytesIn (packets.flatMap (fun q => encodePacket q.1 q.2.1 q.2.2))) s = .next t
      ∧ t.canonicalIdle ∧ t.memInv ∧ t.inputs = s.inputs
      ∧ t.events = s.events ++ packets.map (fun q =>
          .packet q.1 (reportedType q.2.1) q.2.2 (unmarshalView (reportedType q.2.1) q.2.2))

/-- After an overflow, expect noise (70_reset_and_hazards.md R199, a consequence of the spec's decision D9): of an
oversized label the byte that does not fit is reported as the overflow, and every byte after it up to the next START
with a notice. -/
def Obligations.OversizedLabelEndsInNoise : Prop :=
  ∀ (s : State) (l tail : Bytes), s.canonicalIdle → s.memInv →
    l.length = Config.capLabel → (∀ b ∈ l, isTypeMarker b = false) → (∀ b ∈ tail, b ≠ Config.mStart) →
    ∃ t : State, runOver (bytesIn ([Config.mStart] ++ l ++ tail)) s = .next t
      ∧ t.canonicalIdle ∧ t.events = s.events ++ .overflow .label :: tail.map .notice

/-- Encoded integers come back (44_stream.md R141 with 43_unmarshal.md R126, both marked as derived): a decodable
SingleInt packet delivers its value, a decodable IntPair packet its two. -/
def Obligations.EncodedIntegersComeBack : Prop :=
  (∀ (s : State) (l : Bytes) (v : U32), s.canonicalIdle → s.memInv → decodable l (encode32Bytes v) = true →
      ∃ t : State, runOver (bytesIn (encodeSingleInt l v)) s = .next t ∧ t.canonicalIdle
        ∧ t.events = s.events ++ [.packet l .singleInt (encode32Bytes v) (.one v)])
    ∧ ∀ (s : State) (l : Bytes) (v1 v2 : U32), s.canonicalIdle → s.memInv →
        decodable l (encode32Bytes v1 ++ encode32Bytes v2) = true →
      ∃ t : State, runOver (bytesIn (encodeIntPair l v1 v2)) s = .next t ∧ t.canonicalIdle
        ∧ t.events = s.events ++ [.packet l .intPair (encode32Bytes v1 ++ encode32Bytes v2) (.two v1 v2)]

/-- Resynchronisation (44_stream.md R142, which the spec marks as derived): noise before a decodable packet is reported
byte by byte and does not change how the packet decodes. -/
def Obligations.NoiseBeforePacketDoesNotDisturbIt : Prop :=
  ∀ (s : State) (noise l : Bytes) (ty : PType) (p : Bytes),
    s.canonicalIdle → s.memInv → (∀ b ∈ noise, b ≠ Config.mStart) → decodable l p = true →
    ∃ t : State, runOver (bytesIn (noise ++ encodePacket l ty p)) s = .next t
      ∧ t.canonicalIdle
      ∧ t.events = s.events ++ noise.map .notice
          ++ [.packet l (reportedType ty) p (unmarshalView (reportedType ty) p)]

/-- An integer that holds the END byte is cut short (70_reset_and_hazards.md R191, which the spec marks as derived): the
packet is delivered at the first 0x3E with the bytes before it and no integer. -/
def Obligations.IntegerHoldingEndIsCutShort : Prop :=
  ∀ (s : State) (l : Bytes) (v : U32),
    s.canonicalIdle → s.memInv → l.length ≤ Config.lmax → (∀ b ∈ l, isTypeMarker b = false) →
    Config.mEnd ∈ encode32Bytes v →
    ∃ t : State,
      runOver (bytesIn ([Config.mStart] ++ l ++ [Config.mInt]
          ++ (encode32Bytes v).takeWhile (fun b => b != Config.mEnd) ++ [Config.mEnd])) s = .next t
        ∧ t.canonicalIdle
        ∧ t.events = s.events ++ [.packet l .singleInt
            ((encode32Bytes v).takeWhile (fun b => b != Config.mEnd)) .lenMismatch]

/-- A label of `CAP_LABEL` bytes overflows at its last byte and leaves canonical Idle (41_label.md R105 and
70_reset_and_hazards.md R200; the abort and the capacity reading are the spec's decisions D9 and D4). -/
def Obligations.LabelOfCapacityBytesOverflows : Prop :=
  ∀ (s : State) (l : Bytes), s.canonicalIdle → s.memInv →
    l.length = Config.capLabel → (∀ b ∈ l, isTypeMarker b = false) →
    ∃ t : State, runOver (bytesIn ([Config.mStart] ++ l)) s = .next t
      ∧ t.canonicalIdle ∧ t.memInv ∧ t.events = s.events ++ [.overflow .label]

/-- A payload of `CAP_PAYLOAD` bytes overflows at its last byte and leaves canonical Idle (42_payload.md R113 and
70_reset_and_hazards.md R200; the abort and the capacity reading are the spec's decisions D9 and D4). -/
def Obligations.PayloadOfCapacityBytesOverflows : Prop :=
  ∀ (s : State) (l p : Bytes) (ty : PType), s.canonicalIdle → s.memInv →
    l.length ≤ Config.lmax → (∀ b ∈ l, isTypeMarker b = false) →
    p.length = Config.capPayload → (∀ b ∈ p, b ≠ Config.mEnd) →
    ∃ t : State, runOver (bytesIn ([Config.mStart] ++ l ++ [typeMarker ty] ++ p)) s = .next t
      ∧ t.canonicalIdle ∧ t.memInv ∧ t.events = s.events ++ [.overflow .payload]

/-- A notice received by a decoder of this design (70_reset_and_hazards.md R195, which the spec marks as derived): a Char
packet labelled `Err` with the offending byte; but the notice for END gives an empty packet and provokes a notice. -/
def Obligations.NoticeReceivedByPeer : Prop :=
  ∀ (s : State) (b : Byte), s.canonicalIdle → s.memInv →
    ∃ t : State, runOver (bytesIn (noticeWire b)) s = .next t
      ∧ t.canonicalIdle
      ∧ t.events = s.events ++
          (if b = Config.mEnd then [.packet Config.errLabel .char [] .noInts, .notice Config.mEnd]
            else [.packet Config.errLabel .char [b] .noInts])

/-! ## Error conditions, byte classes and wire formats -/

/-- LengthMismatch exactly when the payload length is not the one an integer type implies (60_exceptions.md R154, the
spec's own condition, decision D13). -/
def Obligations.LengthMismatchExactlyOnWrongLength : Prop :=
  ∀ (t : PType) (p : Bytes),
    unmarshalView t p = .lenMismatch ↔ (t = .singleInt ∧ p.length ≠ 4) ∨ (t = .intPair ∧ p.length ≠ 8)

/-- Raising each condition (60_exceptions.md R156, R157 and R161; the cause codes are the spec's decision D16): its
event, its code, where the event goes, and the state it leaves. -/
def Obligations.ConditionsRaiseTheirEvents : Prop :=
  ∀ s : State,
    (∀ b, raise (.malformedInput b) s = { s with events := s.events ++ [.notice b] }
        ∧ causeCode (some (.notice b)) = 1 ∧ Event.toCaller (.notice b) = false)
      ∧ (raise .overflowLabel s = { s with
            st := .idle, ptype := .singleInt, llen := 0, plen := 0, events := s.events ++ [.overflow .label] }
        ∧ causeCode (some (.overflow .label)) = 2 ∧ Event.toCaller (.overflow .label) = true)
      ∧ (raise .overflowPayload s = { s with
            st := .idle, ptype := .singleInt, llen := 0, plen := 0, events := s.events ++ [.overflow .payload] }
        ∧ causeCode (some (.overflow .payload)) = 3 ∧ Event.toCaller (.overflow .payload) = true)
      ∧ (∀ l t p, raise (.lengthMismatch l t p) s = { s with
            st := .idle, ptype := .singleInt, llen := 0, plen := 0,
            events := s.events ++ [.packet l t p .lenMismatch] }
        ∧ causeCode (some (.packet l t p .lenMismatch)) = 4
        ∧ Event.toCaller (.packet l t p .lenMismatch) = true)
      ∧ causeCode none = 0
      ∧ ∀ l t p v, v ≠ .lenMismatch → causeCode (some (.packet l t p v)) = 0

/-- The byte classes (30_encoding.md R61) and what each class does in each state when there is room (R81, which the spec
marks as derived). -/
def Obligations.ByteClassDecidesOperation : Prop :=
  ∀ b : Byte,
    (byteClass b = .start ↔ b = 0x3C#8) ∧ (byteClass b = .int ↔ b = 0x7C#8) ∧ (byteClass b = .int2 ↔ b = 0x7E#8)
      ∧ (byteClass b = .char ↔ b = 0x40#8) ∧ (byteClass b = .stop ↔ b = 0x3E#8)
      ∧ (isTypeMarker b = true ↔ byteClass b = .int ∨ byteClass b = .int2 ∨ byteClass b = .char)
      ∧ decode { rst := false, rx := some b, st := .idle, full := false } =
          (match byteClass b with
            | .start => .sync
            | .int | .int2 | .char | .stop | .other => .noise b)
      ∧ decode { rst := false, rx := some b, st := .collectingLabel, full := false } =
          (match byteClass b with
            | .int => .ltypeInt
            | .int2 => .ltypeInt2
            | .char => .ltypeChar
            | .start | .stop | .other => .lappend b)
      ∧ decode { rst := false, rx := some b, st := .collectingPayload, full := false } =
          (match byteClass b with
            | .stop => .pend
            | .start | .int | .int2 | .char | .other => .pappend b)

/-- The sender's encoders (30_encoding.md R74 to R78). -/
def Obligations.EncodersExpandToBytes : Prop :=
  ∀ (label data message : Bytes) (value v1 v2 : U32) (c1 c2 : Byte),
    encodeSingleInt label value = [Config.mStart] ++ label ++ [Config.mInt] ++ encode32Bytes value ++ [Config.mEnd]
      ∧ encodeIntPair label v1 v2
        = [Config.mStart] ++ label ++ [Config.mInt2] ++ encode32Bytes v1 ++ encode32Bytes v2 ++ [Config.mEnd]
      ∧ encodeChar label data = [Config.mStart] ++ label ++ [Config.mChar] ++ data ++ [Config.mEnd]
      ∧ encodeCharPair label c1 c2 = [Config.mStart] ++ label ++ [Config.mChar] ++ [c1, c2] ++ [Config.mEnd]
      ∧ encodeCharPair label c1 c2 = encodeChar label [c1, c2]
      ∧ encodeError message = encodeChar [0x45#8, 0x72#8, 0x72#8] message

/-- The notice image (30_encoding.md R72; its form is the spec's decision D11) and the wire lengths of R69, which the
spec marks as derived. -/
def Obligations.NoticeImageAndWireLengths : Prop :=
  (∀ b : Byte, noticeWire b = encodeError [b] ∧ (noticeWire b).length = 7
      ∧ noticeWire b = [0x3C#8, 0x45#8, 0x72#8, 0x72#8, 0x40#8, b, 0x3E#8])
    ∧ ∀ (label data : Bytes) (value v1 v2 : U32) (c1 c2 : Byte),
        (encodeSingleInt label value).length = label.length + 7
          ∧ (encodeIntPair label v1 v2).length = label.length + 11
          ∧ (encodeChar label data).length = label.length + 3 + data.length
          ∧ (encodeCharPair label c1 c2).length = label.length + 5
end

