-- ==== Sys2Proof/Laws/State.lean ====
section
/-! SUPPORT. One lemma per field per named update of the state, each true by unfolding, so that no later proof opens
a record update. -/

namespace Sys2Proof.Machine

/-! ### emit -/

@[simp] theorem emit_st (e : Event) (s : State) : (emit e s).st = s.st := rfl
@[simp] theorem emit_ptype (e : Event) (s : State) : (emit e s).ptype = s.ptype := rfl
@[simp] theorem emit_llen (e : Event) (s : State) : (emit e s).llen = s.llen := rfl
@[simp] theorem emit_plen (e : Event) (s : State) : (emit e s).plen = s.plen := rfl
@[simp] theorem emit_lbuf (e : Event) (s : State) : (emit e s).lbuf = s.lbuf := rfl
@[simp] theorem emit_pbuf (e : Event) (s : State) : (emit e s).pbuf = s.pbuf := rfl
@[simp] theorem emit_inputs (e : Event) (s : State) : (emit e s).inputs = s.inputs := rfl
@[simp] theorem emit_events (e : Event) (s : State) : (emit e s).events = s.events ++ [e] := rfl
@[simp] theorem emit_fnResult (e : Event) (s : State) : (emit e s).fnResult = s.fnResult := rfl

/-! ### enterIdle -/

@[simp] theorem enterIdle_st (s : State) : (enterIdle s).st = St.idle := rfl
@[simp] theorem enterIdle_ptype (s : State) : (enterIdle s).ptype = PType.singleInt := rfl
@[simp] theorem enterIdle_llen (s : State) : (enterIdle s).llen = 0 := rfl
@[simp] theorem enterIdle_plen (s : State) : (enterIdle s).plen = 0 := rfl
@[simp] theorem enterIdle_lbuf (s : State) : (enterIdle s).lbuf = s.lbuf := rfl
@[simp] theorem enterIdle_pbuf (s : State) : (enterIdle s).pbuf = s.pbuf := rfl
@[simp] theorem enterIdle_inputs (s : State) : (enterIdle s).inputs = s.inputs := rfl
@[simp] theorem enterIdle_events (s : State) : (enterIdle s).events = s.events := rfl
@[simp] theorem enterIdle_fnResult (s : State) : (enterIdle s).fnResult = s.fnResult := rfl

/-! ### endLabel -/

@[simp] theorem endLabel_st (t : PType) (s : State) : (endLabel t s).st = St.collectingPayload := rfl
@[simp] theorem endLabel_ptype (t : PType) (s : State) : (endLabel t s).ptype = t := rfl
@[simp] theorem endLabel_llen (t : PType) (s : State) : (endLabel t s).llen = s.llen := rfl
@[simp] theorem endLabel_plen (t : PType) (s : State) : (endLabel t s).plen = 0 := rfl
@[simp] theorem endLabel_lbuf (t : PType) (s : State) : (endLabel t s).lbuf = s.lbuf := rfl
@[simp] theorem endLabel_pbuf (t : PType) (s : State) : (endLabel t s).pbuf = s.pbuf := rfl
@[simp] theorem endLabel_inputs (t : PType) (s : State) : (endLabel t s).inputs = s.inputs := rfl
@[simp] theorem endLabel_events (t : PType) (s : State) : (endLabel t s).events = s.events := rfl
@[simp] theorem endLabel_fnResult (t : PType) (s : State) : (endLabel t s).fnResult = s.fnResult := rfl

/-! ### returnResult -/

@[simp] theorem returnResult_st (r : FnResult) (s : State) : (returnResult r s).st = s.st := rfl
@[simp] theorem returnResult_ptype (r : FnResult) (s : State) : (returnResult r s).ptype = s.ptype := rfl
@[simp] theorem returnResult_llen (r : FnResult) (s : State) : (returnResult r s).llen = s.llen := rfl
@[simp] theorem returnResult_plen (r : FnResult) (s : State) : (returnResult r s).plen = s.plen := rfl
@[simp] theorem returnResult_lbuf (r : FnResult) (s : State) : (returnResult r s).lbuf = s.lbuf := rfl
@[simp] theorem returnResult_pbuf (r : FnResult) (s : State) : (returnResult r s).pbuf = s.pbuf := rfl
@[simp] theorem returnResult_inputs (r : FnResult) (s : State) : (returnResult r s).inputs = s.inputs := rfl
@[simp] theorem returnResult_events (r : FnResult) (s : State) : (returnResult r s).events = s.events := rfl
@[simp] theorem returnResult_fnResult (r : FnResult) (s : State) : (returnResult r s).fnResult = some r := rfl

/-! ### popInput -/

@[simp] theorem popInput_st (s : State) : (popInput s).st = s.st := rfl
@[simp] theorem popInput_ptype (s : State) : (popInput s).ptype = s.ptype := rfl
@[simp] theorem popInput_llen (s : State) : (popInput s).llen = s.llen := rfl
@[simp] theorem popInput_plen (s : State) : (popInput s).plen = s.plen := rfl
@[simp] theorem popInput_lbuf (s : State) : (popInput s).lbuf = s.lbuf := rfl
@[simp] theorem popInput_pbuf (s : State) : (popInput s).pbuf = s.pbuf := rfl
@[simp] theorem popInput_inputs (s : State) : (popInput s).inputs = s.inputs.tail := rfl
@[simp] theorem popInput_events (s : State) : (popInput s).events = s.events := rfl
@[simp] theorem popInput_fnResult (s : State) : (popInput s).fnResult = s.fnResult := rfl

/-! ### present -/

@[simp] theorem present_st (x : Input) (s : State) : (present x s).st = s.st := rfl
@[simp] theorem present_ptype (x : Input) (s : State) : (present x s).ptype = s.ptype := rfl
@[simp] theorem present_llen (x : Input) (s : State) : (present x s).llen = s.llen := rfl
@[simp] theorem present_plen (x : Input) (s : State) : (present x s).plen = s.plen := rfl
@[simp] theorem present_lbuf (x : Input) (s : State) : (present x s).lbuf = s.lbuf := rfl
@[simp] theorem present_pbuf (x : Input) (s : State) : (present x s).pbuf = s.pbuf := rfl
@[simp] theorem present_inputs (x : Input) (s : State) : (present x s).inputs = x :: s.inputs := rfl
@[simp] theorem present_events (x : Input) (s : State) : (present x s).events = s.events := rfl
@[simp] theorem present_fnResult (x : Input) (s : State) : (present x s).fnResult = s.fnResult := rfl

/-! ### feed -/

@[simp] theorem feed_st (is : List Input) (s : State) : (feed is s).st = s.st := rfl
@[simp] theorem feed_ptype (is : List Input) (s : State) : (feed is s).ptype = s.ptype := rfl
@[simp] theorem feed_llen (is : List Input) (s : State) : (feed is s).llen = s.llen := rfl
@[simp] theorem feed_plen (is : List Input) (s : State) : (feed is s).plen = s.plen := rfl
@[simp] theorem feed_lbuf (is : List Input) (s : State) : (feed is s).lbuf = s.lbuf := rfl
@[simp] theorem feed_pbuf (is : List Input) (s : State) : (feed is s).pbuf = s.pbuf := rfl
@[simp] theorem feed_inputs (is : List Input) (s : State) : (feed is s).inputs = is ++ s.inputs := rfl
@[simp] theorem feed_events (is : List Input) (s : State) : (feed is s).events = s.events := rfl
@[simp] theorem feed_fnResult (is : List Input) (s : State) : (feed is s).fnResult = s.fnResult := rfl

/-! ### Putting an input before the others and taking it away -/

@[simp] theorem popInput_present (x : Input) (s : State) : popInput (present x s) = s := rfl
@[simp] theorem nextInput_present (x : Input) (s : State) : nextInput (present x s) = x := rfl
@[simp] theorem feed_nil (s : State) : feed [] s = s := rfl
@[simp] theorem feed_cons (x : Input) (is : List Input) (s : State) :
    feed (x :: is) s = present x (feed is s) := rfl

/-! ### The values of a state that no update of another field touches -/

@[simp] theorem labelOf_emit (e : Event) (s : State) : labelOf (emit e s) = labelOf s := rfl
@[simp] theorem payloadOf_emit (e : Event) (s : State) : payloadOf (emit e s) = payloadOf s := rfl
@[simp] theorem labelOf_popInput (s : State) : labelOf (popInput s) = labelOf s := rfl
@[simp] theorem payloadOf_popInput (s : State) : payloadOf (popInput s) = payloadOf s := rfl
@[simp] theorem labelOf_present (x : Input) (s : State) : labelOf (present x s) = labelOf s := rfl
@[simp] theorem payloadOf_present (x : Input) (s : State) : payloadOf (present x s) = payloadOf s := rfl
@[simp] theorem labelOf_feed (is : List Input) (s : State) : labelOf (feed is s) = labelOf s := rfl
@[simp] theorem payloadOf_feed (is : List Input) (s : State) : payloadOf (feed is s) = payloadOf s := rfl
@[simp] theorem labelOf_endLabel (t : PType) (s : State) : labelOf (endLabel t s) = labelOf s := rfl
@[simp] theorem payloadOf_endLabel (t : PType) (s : State) : payloadOf (endLabel t s) = [] := rfl
@[simp] theorem labelOf_enterIdle (s : State) : labelOf (enterIdle s) = [] := rfl
@[simp] theorem payloadOf_enterIdle (s : State) : payloadOf (enterIdle s) = [] := rfl
@[simp] theorem fieldFull_popInput (s : State) : fieldFull (popInput s) = fieldFull s := rfl
@[simp] theorem fieldFull_present (x : Input) (s : State) : fieldFull (present x s) = fieldFull s := rfl
@[simp] theorem fieldFull_feed (is : List Input) (s : State) : fieldFull (feed is s) = fieldFull s := rfl

/-- The operation selected when an input is presented depends on the state register and the counters alone. -/
theorem selected_present (x : Input) (s : State) :
    selected (present x s) = decode { rst := x.rst, rx := x.rx, st := s.st, full := fieldFull s } := rfl

/-- A step whose input is presented first. -/
theorem step_present (x : Input) (s : State) :
    step (present x s) = exec (selected (present x s)) s := rfl

end Sys2Proof.Machine
end

