-- ==== Sys2Proof/Laws/Memory.lean ====
section
/-! SUPPORT. The laws of the buffers: read after write, the canonical form, and what appending does to a value. -/

namespace Sys2Proof.Machine

/-- An index below every listed one reads as unwritten. -/
theorem Memory.read_of_lt (m : Memory) (i : Nat) (h : ∀ c ∈ m, i < c.1) :
    m.read i = Config.unwrittenCell := by
  cases m with
  | nil => rfl
  | cons c rest =>
    have hc := h c (by simp)
    have hr : ∀ c ∈ rest, i < c.1 := fun c hc => h c (by simp [hc])
    simp only [Memory.read, if_neg (Nat.ne_of_gt hc)]
    exact Memory.read_of_lt rest i hr

/-- Read after write: the written cell holds the byte, every other cell what it held. -/
theorem Memory.read_write (n : Nat) (m : Memory) (hm : m.wf n) (i j : Nat) (b : Byte) :
    (m.write i b).read j = if j = i then b else m.read j := by
  induction m with
  | nil =>
    by_cases hb : b = Config.unwrittenCell <;> by_cases hij : i = j
    · simp [Memory.write, Memory.read, hb]
    · simp [Memory.write, Memory.read, hb]
    · simp [Memory.write, Memory.read, hb, hij]
    · simp [Memory.write, Memory.read, hb, hij, Ne.symm hij]
  | cons c rest ih =>
    obtain ⟨k, v⟩ := c
    obtain ⟨hp, hv⟩ := hm
    rw [List.pairwise_cons] at hp
    have ih' := ih ⟨hp.2, fun c hc => hv c (by simp [hc])⟩
    have hlow : ∀ i, i ≤ k → Memory.read rest i = Config.unwrittenCell := fun i hi =>
      Memory.read_of_lt rest i (fun c hc => Nat.lt_of_le_of_lt hi (hp.1 c hc))
    unfold Memory.write
    split
    · rename_i hlt
      split
      · rename_i hb
        by_cases hij : j = i
        · subst hij hb
          simp [Memory.read, Nat.ne_of_gt hlt, hlow j (Nat.le_of_lt hlt)]
        · simp [hij]
      · by_cases hij : j = i
        · simp [Memory.read, hij]
        · simp [Memory.read, hij, Ne.symm hij]
    · rename_i hge
      split
      · rename_i hik
        subst hik
        split
        · rename_i hb
          by_cases hij : j = i
          · subst hij hb
            simp [hlow j (Nat.le_refl j)]
          · simp [Memory.read, hij, Ne.symm hij]
        · by_cases hij : j = i
          · simp [Memory.read, hij]
          · simp [Memory.read, hij, Ne.symm hij]
      · rename_i hne
        by_cases hkj : k = j
        · have : ¬ j = i := fun h => hne (by omega)
          simp [Memory.read, hkj, this]
        · simp only [Memory.read, if_neg hkj]
          exact ih'

/-- A cell listed after a write is the written one or was listed before. -/
theorem Memory.mem_write (m : Memory) (i : Nat) (b : Byte) (c : Host.Cell) (hc : c ∈ m.write i b) :
    c ∈ m ∨ (c = (i, b) ∧ b ≠ Config.unwrittenCell) := by
  induction m with
  | nil =>
    unfold Memory.write at hc
    split at hc
    · simp at hc
    · exact .inr ⟨by simpa using hc, ‹_›⟩
  | cons c' rest ih =>
    unfold Memory.write at hc
    split at hc
    · split at hc
      · exact .inl hc
      · rcases List.mem_cons.1 hc with h | h
        · exact .inr ⟨h, ‹_›⟩
        · exact .inl h
    · split at hc
      · split at hc
        · exact .inl (List.mem_cons_of_mem _ hc)
        · rcases List.mem_cons.1 hc with h | h
          · exact .inr ⟨h, ‹_›⟩
          · exact .inl (List.mem_cons_of_mem _ h)
      · rcases List.mem_cons.1 hc with h | h
        · exact .inl (by simp [h])
        · rcases ih h with h | h
          · exact .inl (List.mem_cons_of_mem _ h)
          · exact .inr h

/-- A write inside the buffer keeps the canonical form. -/
theorem Memory.wf_write (n : Nat) (m : Memory) (hm : m.wf n) (i : Nat) (hi : i < n) (b : Byte) :
    (m.write i b).wf n := by
  refine ⟨?_, fun c hc => ?_⟩
  · induction m with
    | nil => unfold Memory.write; split <;> simp
    | cons c rest ih =>
      obtain ⟨hp, hv⟩ := hm
      have hp' := List.pairwise_cons.1 hp
      have ih' := ih ⟨hp'.2, fun c hc => hv c (by simp [hc])⟩
      unfold Memory.write
      split
      · rename_i hlt
        split
        · exact hp
        · refine List.pairwise_cons.2 ⟨fun d hd => ?_, hp⟩
          rcases List.mem_cons.1 hd with h | h
          · subst h; exact hlt
          · exact Nat.lt_trans hlt (hp'.1 d h)
      · split
        · rename_i hik
          split
          · exact hp'.2
          · exact List.pairwise_cons.2 ⟨fun d hd => hik ▸ hp'.1 d hd, hp'.2⟩
        · rename_i h1 h2
          refine List.pairwise_cons.2 ⟨fun d hd => ?_, ih'⟩
          rcases Memory.mem_write rest i b d hd with h | h
          · exact hp'.1 d h
          · obtain ⟨rfl, -⟩ := h
            simp only at h1 h2 ⊢
            omega
  · rcases Memory.mem_write m i b c hc with h | ⟨rfl, hb⟩
    · exact hm.2 c h
    · exact ⟨hi, hb⟩

/-- The empty buffer is in canonical form. -/
theorem Memory.wf_nil (n : Nat) : Memory.wf n [] := by simp [Memory.wf]

/-- Reading `n` cells gives `n` bytes. -/
@[simp] theorem bufRead_length (m : Memory) (i n : Nat) : (bufRead m i n).length = n := by simp [bufRead]

/-- Reading no cell. -/
@[simp] theorem bufRead_zero (m : Memory) (i : Nat) : bufRead m i 0 = [] := rfl

/-- Reading one cell more. -/
theorem bufRead_succ (m : Memory) (n : Nat) : bufRead m 0 (n + 1) = bufRead m 0 n ++ [m.read n] := by
  simp [bufRead, List.range_succ]

/-- Appending at the counter: the value grows by the byte at its end. -/
theorem bufRead_append (n : Nat) (m : Memory) (hm : m.wf n) (k : Nat) (b : Byte) :
    bufRead (m.write k b) 0 (k + 1) = bufRead m 0 k ++ [b] := by
  rw [bufRead_succ, Memory.read_write n m hm, if_pos rfl]
  congr 1
  refine List.map_congr_left fun j hj => ?_
  rw [Memory.read_write n m hm, if_neg]
  have := List.mem_range.1 hj
  omega

end Sys2Proof.Machine
end

