-- ==== Sys2Proof/Laws/Ops.lean ====
section
/-! SUPPORT. One lemma per shared operation that says all it does; later proofs cite these instead of unfolding. -/

namespace Sys2Proof.Machine

/-- MalformedInput: its notice and nothing else (R151, R161). -/
@[simp] theorem raise_malformedInput (b : Byte) (s : State) :
    raise (.malformedInput b) s = emit (.notice b) s := rfl

/-- BufferOverflow of the label buffer: its event and canonical Idle (R152, R161). -/
@[simp] theorem raise_overflowLabel (s : State) :
    raise .overflowLabel s = enterIdle (emit (.overflow .label) s) := rfl

/-- BufferOverflow of the payload buffer: its event and canonical Idle (R153, R161). -/
@[simp] theorem raise_overflowPayload (s : State) :
    raise .overflowPayload s = enterIdle (emit (.overflow .payload) s) := rfl

/-- LengthMismatch: the packet without integers and canonical Idle (R154, R161). -/
@[simp] theorem raise_lengthMismatch (l : Bytes) (t : PType) (p : Bytes) (s : State) :
    raise (.lengthMismatch l t p) s = enterIdle (emit (.packet l t p .lenMismatch) s) := rfl

/-- Delivery in one line: the packet with its integer view, then canonical Idle (R111). -/
theorem deliver_eq (s : State) :
    deliver s =
      enterIdle (emit (.packet (labelOf s) s.ptype (payloadOf s) (unmarshalView s.ptype (payloadOf s))) s) := by
  unfold deliver
  split <;> simp [*]

/-- Append to the label with room (R45). -/
theorem appendLabel_room (b : Byte) (s : State) (h : s.llen.val < Config.lmax) :
    appendLabel b s =
      { s with lbuf := s.lbuf.write s.llen.val b, llen := ⟨s.llen.val + 1, Nat.add_lt_of_lt_sub h⟩ } :=
  dif_pos h

/-- Append to a full label is the overflow operation (R45). -/
theorem appendLabel_full (b : Byte) (s : State) (h : ¬ s.llen.val < Config.lmax) :
    appendLabel b s = raise .overflowLabel s := dif_neg h

/-- Append to the payload with room (R45). -/
theorem appendPayload_room (b : Byte) (s : State) (h : s.plen.val < Config.pmax) :
    appendPayload b s =
      { s with pbuf := s.pbuf.write s.plen.val b, plen := ⟨s.plen.val + 1, Nat.add_lt_of_lt_sub h⟩ } :=
  dif_pos h

/-- Append to a full payload is the overflow operation (R45). -/
theorem appendPayload_full (b : Byte) (s : State) (h : ¬ s.plen.val < Config.pmax) :
    appendPayload b s = raise .overflowPayload s := dif_neg h

/-- The label value after an append with room. -/
theorem labelOf_appendLabel (b : Byte) (s : State) (hm : Memory.wf Config.lmax s.lbuf)
    (h : s.llen.val < Config.lmax) : labelOf (appendLabel b s) = labelOf s ++ [b] := by
  rw [appendLabel_room b s h]
  exact bufRead_append Config.lmax s.lbuf hm s.llen.val b

/-- The payload value after an append with room. -/
theorem payloadOf_appendPayload (b : Byte) (s : State) (hm : Memory.wf Config.pmax s.pbuf)
    (h : s.plen.val < Config.pmax) : payloadOf (appendPayload b s) = payloadOf s ++ [b] := by
  rw [appendPayload_room b s h]
  exact bufRead_append Config.pmax s.pbuf hm s.plen.val b

/-- The label value has as many bytes as its counter says. -/
@[simp] theorem labelOf_length (s : State) : (labelOf s).length = s.llen.val := bufRead_length _ _ _

/-- The payload value has as many bytes as its counter says. -/
@[simp] theorem payloadOf_length (s : State) : (payloadOf s).length = s.plen.val := bufRead_length _ _ _

/-- A single integer with the wrong number of bytes is a length mismatch (R154). -/
theorem unmarshalView_singleInt_of_length (p : Bytes) (h : p.length ≠ 4) :
    unmarshalView .singleInt p = .lenMismatch := by
  show unmarshalOne p = .lenMismatch
  unfold unmarshalOne
  split
  · exact absurd rfl h
  · rfl

/-- An integer pair with the wrong number of bytes is a length mismatch (R154). -/
theorem unmarshalView_intPair_of_length (p : Bytes) (h : p.length ≠ 8) :
    unmarshalView .intPair p = .lenMismatch := by
  show unmarshalTwo p = .lenMismatch
  unfold unmarshalTwo
  split
  · exact absurd rfl h
  · rfl

end Sys2Proof.Machine
end

