-- ==== Sys2Proof/Laws/Codec.lean ====
section
/-! SUPPORT. The bits of the integers that `Decode32` and `Encode32` pass between (43_unmarshal.md R120, R125). -/

namespace Sys2Proof.Machine

/-- Each byte of the wire fills its own eight bits, the first the highest (R121). -/
theorem decode32Val_getLsbD (b0 b1 b2 b3 : Byte) (i : Nat) :
    (decode32Val b0 b1 b2 b3).getLsbD i =
      if i < 8 then b3.getLsbD i
      else if i < 16 then b2.getLsbD (i - 8)
      else if i < 24 then b1.getLsbD (i - 16)
      else b0.getLsbD (i - 24) := by
  unfold decode32Val
  have hz : ∀ (b : Byte) (j : Nat), 8 ≤ j → b.getLsbD j = false := fun b j h => BitVec.getLsbD_of_ge b j h
  simp only [BitVec.getLsbD_or, BitVec.getLsbD_shiftLeft, BitVec.truncate_eq_setWidth, BitVec.getLsbD_setWidth,
    BitVec.getLsbD_zero]
  have e1 : i - 8 - 8 = i - 16 := by omega
  have e2 : i - 16 - 8 = i - 24 := by omega
  rw [e1, e2]
  by_cases h1 : i < 8
  · simp [h1, show i < 32 by omega]
  by_cases h2 : i < 16
  · simp [h1, h2, show i < 32 by omega, show i - 8 < 8 by omega, show i - 8 < 32 by omega, hz b3 i (by omega)]
  by_cases h3 : i < 24
  · simp [h1, h2, h3, show i < 32 by omega, show ¬ i - 8 < 8 by omega, show i - 8 < 32 by omega,
      show i - 16 < 8 by omega, show i - 16 < 32 by omega, hz b3 i (by omega), hz b2 (i - 8) (by omega)]
  by_cases h4 : i < 32
  · simp [h1, h2, h3, h4, show ¬ i - 8 < 8 by omega, show i - 8 < 32 by omega,
      show ¬ i - 16 < 8 by omega, show i - 16 < 32 by omega, show i - 24 < 32 by omega,
      hz b3 i (by omega), hz b2 (i - 8) (by omega), hz b1 (i - 16) (by omega)]
  · simp [h1, h2, h3, h4, hz b0 (i - 24) (by omega)]

/-- The byte at bit `k` of a word, bit by bit. -/
theorem extract_byte_getLsbD (v : U32) (k i : Nat) :
    (v.extractLsb' k 8).getLsbD i = (decide (i < 8) && v.getLsbD (k + i)) := by
  simp [BitVec.getLsbD_extractLsb']

/-- The four bytes of a decoded integer, as they were received. -/
theorem decode32Val_bytes (b0 b1 b2 b3 : Byte) :
    (decode32Val b0 b1 b2 b3).extractLsb' 24 8 = b0 ∧ (decode32Val b0 b1 b2 b3).extractLsb' 16 8 = b1
      ∧ (decode32Val b0 b1 b2 b3).extractLsb' 8 8 = b2 ∧ (decode32Val b0 b1 b2 b3).extractLsb' 0 8 = b3 := by
  refine ⟨?_, ?_, ?_, ?_⟩ <;>
    (refine BitVec.eq_of_getLsbD_eq fun i hi => ?_
     rw [extract_byte_getLsbD, decode32Val_getLsbD, decide_eq_true hi, Bool.true_and])
  · rw [if_neg (by omega), if_neg (by omega), if_neg (by omega), show 24 + i - 24 = i by omega]
  · rw [if_neg (by omega), if_neg (by omega), if_pos (by omega), show 16 + i - 16 = i by omega]
  · rw [if_neg (by omega), if_pos (by omega), show 8 + i - 8 = i by omega]
  · rw [if_pos (by omega), show 0 + i = i by omega]

end Sys2Proof.Machine
end

