-- ==== Sys2Proof/Laws/Config.lean ====
section
/-! SUPPORT. The parameters as numerals, for `omega` and `simp`, and that the five markers are pairwise distinct
(00_scope.md R10). -/

namespace Sys2Proof.Config

theorem capLabel_eq : capLabel = 100 := rfl
theorem capPayload_eq : capPayload = 100 := rfl
theorem lmax_eq : lmax = 99 := rfl
theorem pmax_eq : pmax = 99 := rfl

theorem markers_distinct : [mStart, mInt, mInt2, mChar, mEnd].Nodup := by decide

theorem mInt2_ne_mInt : mInt2 ≠ mInt := by decide
theorem mChar_ne_mInt : mChar ≠ mInt := by decide
theorem mChar_ne_mInt2 : mChar ≠ mInt2 := by decide

end Sys2Proof.Config
end

