-- ==== Sys2Proof/Laws/Decode.lean ====
section
/-! SUPPORT. The fields of a selection word come back as they were put in, so decoding an encoded operation is the
selection logic applied to the fields. -/

namespace Sys2Proof

/-- The bits of a selection word: the byte below, the rest above. -/
theorem selWord_getLsbD (full noByte rst : Bool) (st : St) (b : Byte) (i : Nat) :
    (selWord full noByte rst st b).getLsbD i =
      if i < 8 then b.getLsbD i
      else (BitVec.ofBool full ++ BitVec.ofBool noByte ++ BitVec.ofBool rst ++ st.code).getLsbD (i - 8) :=
  BitVec.getLsbD_append
    (x := BitVec.ofBool full ++ BitVec.ofBool noByte ++ BitVec.ofBool rst ++ st.code) (y := b) (i := i)

/-- Bits [7:0] are the byte (R63). -/
@[simp] theorem selWord_byte (full noByte rst : Bool) (st : St) (b : Byte) :
    (selWord full noByte rst st b).extractLsb' 0 8 = b := by
  ext i hi
  rw [BitVec.getElem_extractLsb', selWord_getLsbD]
  simp [hi]

/-- Bits [9:8] are the state code (R63). -/
@[simp] theorem selWord_code (full noByte rst : Bool) (st : St) (b : Byte) :
    (selWord full noByte rst st b).extractLsb' 8 2 = st.code := by
  ext i hi
  have hi' : 8 + i - 8 < 2 := by omega
  rw [BitVec.getElem_extractLsb', selWord_getLsbD, if_neg (by omega), BitVec.getLsbD_append, if_pos hi']
  simp [hi]

/-- Bit 10 is `rst`. -/
@[simp] theorem selWord_rst (full noByte rst : Bool) (st : St) (b : Byte) :
    (selWord full noByte rst st b).getLsbD 10 = rst := by
  rw [selWord_getLsbD, if_neg (by decide)]
  cases full <;> cases noByte <;> cases rst <;> cases st <;> rfl

/-- Bit 11 says that no byte is presented. -/
@[simp] theorem selWord_noByte (full noByte rst : Bool) (st : St) (b : Byte) :
    (selWord full noByte rst st b).getLsbD 11 = noByte := by
  rw [selWord_getLsbD, if_neg (by decide)]
  cases full <;> cases noByte <;> cases rst <;> cases st <;> rfl

/-- Bit 12 says that the counter is at its maximum. -/
@[simp] theorem selWord_full (full noByte rst : Bool) (st : St) (b : Byte) :
    (selWord full noByte rst st b).getLsbD 12 = full := by
  rw [selWord_getLsbD, if_neg (by decide)]
  cases full <;> cases noByte <;> cases rst <;> cases st <;> rfl

/-- The state code of a state stands for it (R21). -/
@[simp] theorem ofCode_code (st : St) : St.ofCode st.code = some st := by cases st <;> rfl

/-- A selection word decodes to the operation of its fields. -/
theorem decodeWord_selWord (full noByte rst : Bool) (st : St) (b : Byte) :
    decodeWord (selWord full noByte rst st b) =
      .ok (decode { rst := rst, rx := if noByte then none else some b, st := st, full := full }) := by
  unfold decodeWord Selection.ofWord
  rw [selWord_code, ofCode_code, selWord_rst, selWord_noByte, selWord_byte, selWord_full]

end Sys2Proof
end

