-- ==== Sys2Proof/Laws/PerInstr.lean ====
section
/-! SUPPORT. Families of statements made per operation. -/

namespace Sys2Proof.Laws.RoundTrip

/-- Decoding the word of a well-formed operation gives the operation back. -/
def Statement (i : Instr) : Prop :=
  i.wellFormed = true → ∀ w, encode i = some w → decodeWord w = .ok i

theorem reset : Statement .reset := by
  intro _ w hw
  obtain rfl := Option.some.inj hw
  exact decodeWord_selWord _ _ _ _ _

theorem hold : Statement .hold := by
  intro _ w hw
  obtain rfl := Option.some.inj hw
  exact decodeWord_selWord _ _ _ _ _

theorem sync : Statement .sync := by
  intro _ w hw
  obtain rfl := Option.some.inj hw
  exact decodeWord_selWord _ _ _ _ _

theorem noise (b : Byte) : Statement (.noise b) := by
  intro h w hw
  obtain rfl := Option.some.inj hw
  rw [decodeWord_selWord]
  have hb : b ≠ Config.mStart := by simpa [Instr.wellFormed] using h
  simp [decode, hb]

theorem ltypeInt : Statement .ltypeInt := by
  intro _ w hw
  obtain rfl := Option.some.inj hw
  exact decodeWord_selWord _ _ _ _ _

theorem ltypeInt2 : Statement .ltypeInt2 := by
  intro _ w hw
  obtain rfl := Option.some.inj hw
  exact decodeWord_selWord _ _ _ _ _

theorem ltypeChar : Statement .ltypeChar := by
  intro _ w hw
  obtain rfl := Option.some.inj hw
  exact decodeWord_selWord _ _ _ _ _

theorem lappend (b : Byte) : Statement (.lappend b) := by
  intro h w hw
  obtain rfl := Option.some.inj hw
  rw [decodeWord_selWord]
  have hb : (b ≠ Config.mInt ∧ b ≠ Config.mInt2) ∧ b ≠ Config.mChar := by
    simpa [Instr.wellFormed, isTypeMarker] using h
  simp [decode, hb]

theorem lovf (b : Byte) : Statement (.lovf b) := by
  intro h w hw
  obtain rfl := Option.some.inj hw
  rw [decodeWord_selWord]
  have hb : (b ≠ Config.mInt ∧ b ≠ Config.mInt2) ∧ b ≠ Config.mChar := by
    simpa [Instr.wellFormed, isTypeMarker] using h
  simp [decode, hb]

theorem pend : Statement .pend := by
  intro _ w hw
  obtain rfl := Option.some.inj hw
  exact decodeWord_selWord _ _ _ _ _

theorem pappend (b : Byte) : Statement (.pappend b) := by
  intro h w hw
  obtain rfl := Option.some.inj hw
  rw [decodeWord_selWord]
  have hb : b ≠ Config.mEnd := by simpa [Instr.wellFormed] using h
  simp [decode, hb]

theorem povf (b : Byte) : Statement (.povf b) := by
  intro h w hw
  obtain rfl := Option.some.inj hw
  rw [decodeWord_selWord]
  have hb : b ≠ Config.mEnd := by simpa [Instr.wellFormed] using h
  simp [decode, hb]

theorem decode32 (b0 b1 b2 b3 : Byte) : Statement (.decode32 b0 b1 b2 b3) := fun _ _ hw => nomatch hw

theorem unmarshal (t : PType) (p : Bytes) : Statement (.unmarshal t p) := fun _ _ hw => nomatch hw

theorem encode32 (v : U32) : Statement (.encode32 v) := fun _ _ hw => nomatch hw

end Sys2Proof.Laws.RoundTrip
end

