-- ==== Sys2Proof/Laws/Step.lean ====
section
/-! SUPPORT. What a step can do, said once: the meaning of each operation in one line, and the cases of the selection
by state and byte (44_stream.md R135). -/

namespace Sys2Proof.Machine

/-! ## The meanings -/

@[simp] theorem exec_reset (s : State) : exec .reset s = .next (enterIdle s) := rfl
@[simp] theorem exec_hold (s : State) : exec .hold s = .next s := rfl
@[simp] theorem exec_sync (s : State) :
    exec .sync s = .next { s with llen := 0, st := .collectingLabel } := rfl
@[simp] theorem exec_noise (b : Byte) (s : State) : exec (.noise b) s = .next (emit (.notice b) s) := rfl
@[simp] theorem exec_ltypeInt (s : State) : exec .ltypeInt s = .next (endLabel .singleInt s) := rfl
@[simp] theorem exec_ltypeInt2 (s : State) : exec .ltypeInt2 s = .next (endLabel .intPair s) := rfl
@[simp] theorem exec_ltypeChar (s : State) : exec .ltypeChar s = .next (endLabel .char s) := rfl
@[simp] theorem exec_lappend (b : Byte) (s : State) : exec (.lappend b) s = .next (appendLabel b s) := rfl
@[simp] theorem exec_lovf (b : Byte) (s : State) :
    exec (.lovf b) s = .next (enterIdle (emit (.overflow .label) s)) := rfl
@[simp] theorem exec_pend (s : State) : exec .pend s = .next (deliver s) := rfl
@[simp] theorem exec_pappend (b : Byte) (s : State) : exec (.pappend b) s = .next (appendPayload b s) := rfl
@[simp] theorem exec_povf (b : Byte) (s : State) :
    exec (.povf b) s = .next (enterIdle (emit (.overflow .payload) s)) := rfl
@[simp] theorem exec_decode32 (b0 b1 b2 b3 : Byte) (s : State) :
    exec (.decode32 b0 b1 b2 b3) s = .next (returnResult (.word (decode32Val b0 b1 b2 b3)) s) := rfl
@[simp] theorem exec_unmarshal (t : PType) (p : Bytes) (s : State) :
    exec (.unmarshal t p) s = .next (returnResult (.view (unmarshalView t p)) s) := rfl
@[simp] theorem exec_encode32 (v : U32) (s : State) :
    exec (.encode32 v) s = .next (returnResult (.bytes (encode32Bytes v)) s) := rfl

/-- Every meaning answers a next state. -/
theorem exec_next (i : Instr) (s : State) : ∃ t, exec i s = .next t := by
  cases i <;> exact ⟨_, rfl⟩

/-! ## The steps, one lemma per row of the operation table -/

/-- RESET (R62 row 1). -/
theorem step_reset (rx : Option Byte) (s : State) :
    step (present { rst := true, rx := rx } s) = .next (enterIdle s) := rfl

/-- HOLD (R62 row 2). -/
theorem step_hold (s : State) : step (present idleInput s) = .next s := rfl

/-- With no input waiting the step is a HOLD (log entry 1). -/
theorem step_no_input (s : State) (h : s.inputs = []) : step s = .next s := by
  cases s
  subst h
  rfl

/-- SYNC (R62 row 3). -/
theorem step_sync (s : State) (h : s.st = .idle) :
    step (present (byteInput Config.mStart) s) = .next { s with llen := 0, st := .collectingLabel } := by
  rw [step_present, selected_present, h]
  rfl

/-- NOISE (R62 row 4). -/
theorem step_noise (b : Byte) (s : State) (h : s.st = .idle) (hb : b ≠ Config.mStart) :
    step (present (byteInput b) s) = .next (emit (.notice b) s) := by
  rw [step_present, selected_present, h]
  simp [decode, byteInput, hb]

/-- LTYPE_INT (R62 row 5). -/
theorem step_ltypeInt (s : State) (h : s.st = .collectingLabel) :
    step (present (byteInput Config.mInt) s) = .next (endLabel .singleInt s) := by
  rw [step_present, selected_present, h]
  rfl

/-- LTYPE_INT2 (R62 row 6). -/
theorem step_ltypeInt2 (s : State) (h : s.st = .collectingLabel) :
    step (present (byteInput Config.mInt2) s) = .next (endLabel .intPair s) := by
  rw [step_present, selected_present, h]
  rfl

/-- LTYPE_CHAR (R62 row 7). -/
theorem step_ltypeChar (s : State) (h : s.st = .collectingLabel) :
    step (present (byteInput Config.mChar) s) = .next (endLabel .char s) := by
  rw [step_present, selected_present, h]
  rfl

/-- A type marker of any kind ends the label. -/
theorem step_typeMarker (t : PType) (s : State) (h : s.st = .collectingLabel) :
    step (present (byteInput (typeMarker t)) s) = .next (endLabel (reportedType t) s) := by
  cases t
  · exact step_ltypeInt s h
  · exact step_ltypeInt2 s h
  · exact step_ltypeChar s h
  · exact step_ltypeChar s h

/-- A byte that is no type marker is none of the three. -/
theorem not_isTypeMarker (b : Byte) (hb : isTypeMarker b = false) :
    b ≠ Config.mInt ∧ b ≠ Config.mInt2 ∧ b ≠ Config.mChar := by
  simpa [isTypeMarker, and_assoc] using hb

/-- The room in the label, as the selection sees it. -/
theorem fieldFull_label (s : State) (h : s.st = .collectingLabel) :
    fieldFull s = !decide (s.llen.val < Config.lmax) := by simp only [fieldFull, labelRoom, h]

/-- The room in the payload, as the selection sees it. -/
theorem fieldFull_payload (s : State) (h : s.st = .collectingPayload) :
    fieldFull s = !decide (s.plen.val < Config.pmax) := by simp only [fieldFull, payloadRoom, h]

/-- LAPPEND (R62 row 8). -/
theorem step_lappend (b : Byte) (s : State) (h : s.st = .collectingLabel) (hb : isTypeMarker b = false)
    (hr : s.llen.val < Config.lmax) : step (present (byteInput b) s) = .next (appendLabel b s) := by
  obtain ⟨h1, h2, h3⟩ := not_isTypeMarker b hb
  rw [step_present, selected_present, fieldFull_label s h, decide_eq_true hr, h]
  simp [decode, byteInput, h1, h2, h3]

/-- LOVF (R62 row 9). -/
theorem step_lovf (b : Byte) (s : State) (h : s.st = .collectingLabel) (hb : isTypeMarker b = false)
    (hr : ¬ s.llen.val < Config.lmax) :
    step (present (byteInput b) s) = .next (enterIdle (emit (.overflow .label) s)) := by
  obtain ⟨h1, h2, h3⟩ := not_isTypeMarker b hb
  rw [step_present, selected_present, fieldFull_label s h, decide_eq_false hr, h]
  simp [decode, byteInput, h1, h2, h3]

/-- PEND (R62 row 10). -/
theorem step_pend (s : State) (h : s.st = .collectingPayload) :
    step (present (byteInput Config.mEnd) s) = .next (deliver s) := by
  rw [step_present, selected_present, h]
  rfl

/-- PAPPEND (R62 row 11). -/
theorem step_pappend (b : Byte) (s : State) (h : s.st = .collectingPayload) (hb : b ≠ Config.mEnd)
    (hr : s.plen.val < Config.pmax) : step (present (byteInput b) s) = .next (appendPayload b s) := by
  rw [step_present, selected_present, fieldFull_payload s h, decide_eq_true hr, h]
  simp [decode, byteInput, hb]

/-- POVF (R62 row 12). -/
theorem step_povf (b : Byte) (s : State) (h : s.st = .collectingPayload) (hb : b ≠ Config.mEnd)
    (hr : ¬ s.plen.val < Config.pmax) :
    step (present (byteInput b) s) = .next (enterIdle (emit (.overflow .payload) s)) := by
  rw [step_present, selected_present, fieldFull_payload s h, decide_eq_false hr, h]
  simp [decode, byteInput, hb]

/-! ## Inversion: the selection's cases -/

/-- Every selection falls under exactly one row of R62, read from the top. -/
theorem decode_cases (x : Selection) :
    (x.rst = true ∧ decode x = .reset)
      ∨ (x.rst = false ∧ x.rx = none ∧ decode x = .hold)
      ∨ (x.rst = false ∧ x.rx = some Config.mStart ∧ x.st = .idle ∧ decode x = .sync)
      ∨ (∃ b, x.rst = false ∧ x.rx = some b ∧ x.st = .idle ∧ b ≠ Config.mStart ∧ decode x = .noise b)
      ∨ (x.rst = false ∧ x.rx = some Config.mInt ∧ x.st = .collectingLabel ∧ decode x = .ltypeInt)
      ∨ (x.rst = false ∧ x.rx = some Config.mInt2 ∧ x.st = .collectingLabel ∧ decode x = .ltypeInt2)
      ∨ (x.rst = false ∧ x.rx = some Config.mChar ∧ x.st = .collectingLabel ∧ decode x = .ltypeChar)
      ∨ (∃ b, x.rst = false ∧ x.rx = some b ∧ x.st = .collectingLabel ∧ isTypeMarker b = false ∧ x.full = false
          ∧ decode x = .lappend b)
      ∨ (∃ b, x.rst = false ∧ x.rx = some b ∧ x.st = .collectingLabel ∧ isTypeMarker b = false ∧ x.full = true
          ∧ decode x = .lovf b)
      ∨ (x.rst = false ∧ x.rx = some Config.mEnd ∧ x.st = .collectingPayload ∧ decode x = .pend)
      ∨ (∃ b, x.rst = false ∧ x.rx = some b ∧ x.st = .collectingPayload ∧ b ≠ Config.mEnd ∧ x.full = false
          ∧ decode x = .pappend b)
      ∨ (∃ b, x.rst = false ∧ x.rx = some b ∧ x.st = .collectingPayload ∧ b ≠ Config.mEnd ∧ x.full = true
          ∧ decode x = .povf b) := by
  obtain ⟨rst, rx, st, full⟩ := x
  cases rst
  case true => exact .inl ⟨rfl, rfl⟩
  cases rx with
  | none => exact .inr (.inl ⟨rfl, rfl, rfl⟩)
  | some b =>
    refine .inr (.inr ?_)
    cases st
    case idle =>
      by_cases hb : b = Config.mStart
      · subst hb; exact .inl ⟨rfl, rfl, rfl, rfl⟩
      · exact .inr (.inl ⟨b, rfl, rfl, rfl, hb, by simp [decode, hb]⟩)
    case collectingLabel =>
      refine .inr (.inr ?_)
      by_cases h1 : b = Config.mInt
      · subst h1; exact .inl ⟨rfl, rfl, rfl, rfl⟩
      by_cases h2 : b = Config.mInt2
      · subst h2; exact .inr (.inl ⟨rfl, rfl, rfl, rfl⟩)
      by_cases h3 : b = Config.mChar
      · subst h3; exact .inr (.inr (.inl ⟨rfl, rfl, rfl, rfl⟩))
      have hm : isTypeMarker b = false := by simp [isTypeMarker, h1, h2, h3]
      refine .inr (.inr (.inr ?_))
      cases full
      · exact .inl ⟨b, rfl, rfl, rfl, hm, rfl, by simp [decode, h1, h2, h3]⟩
      · exact .inr (.inl ⟨b, rfl, rfl, rfl, hm, rfl, by simp [decode, h1, h2, h3]⟩)
    case collectingPayload =>
      refine .inr (.inr (.inr (.inr (.inr (.inr (.inr ?_))))))
      by_cases hb : b = Config.mEnd
      · subst hb; exact .inl ⟨rfl, rfl, rfl, rfl⟩
      refine .inr ?_
      cases full
      · exact .inl ⟨b, rfl, rfl, rfl, hb, rfl, by simp [decode, hb]⟩
      · exact .inr ⟨b, rfl, rfl, rfl, hb, rfl, by simp [decode, hb]⟩

/-- What one step can do, said once: the operation selected, what selected it, and the next state in terms of the
state with its input consumed. -/
theorem step_cases (s t : State) (h : step s = .next t) :
    ((nextInput s).rst = true ∧ selected s = .reset ∧ t = enterIdle (popInput s))
      ∨ (nextInput s = idleInput ∧ selected s = .hold ∧ t = popInput s)
      ∨ (nextInput s = byteInput Config.mStart ∧ s.st = .idle ∧ selected s = .sync
          ∧ t = { popInput s with llen := 0, st := .collectingLabel })
      ∨ (∃ b, nextInput s = byteInput b ∧ s.st = .idle ∧ b ≠ Config.mStart ∧ selected s = .noise b
          ∧ t = emit (.notice b) (popInput s))
      ∨ (nextInput s = byteInput Config.mInt ∧ s.st = .collectingLabel ∧ selected s = .ltypeInt
          ∧ t = endLabel .singleInt (popInput s))
      ∨ (nextInput s = byteInput Config.mInt2 ∧ s.st = .collectingLabel ∧ selected s = .ltypeInt2
          ∧ t = endLabel .intPair (popInput s))
      ∨ (nextInput s = byteInput Config.mChar ∧ s.st = .collectingLabel ∧ selected s = .ltypeChar
          ∧ t = endLabel .char (popInput s))
      ∨ (∃ b, ∃ hr : s.llen.val < Config.lmax, nextInput s = byteInput b ∧ s.st = .collectingLabel
          ∧ isTypeMarker b = false ∧ selected s = .lappend b
          ∧ t = { popInput s with
                  lbuf := s.lbuf.write s.llen.val b, llen := ⟨s.llen.val + 1, Nat.add_lt_of_lt_sub hr⟩ })
      ∨ (∃ b, nextInput s = byteInput b ∧ s.st = .collectingLabel ∧ isTypeMarker b = false
          ∧ ¬ s.llen.val < Config.lmax ∧ selected s = .lovf b
          ∧ t = enterIdle (emit (.overflow .label) (popInput s)))
      ∨ (nextInput s = byteInput Config.mEnd ∧ s.st = .collectingPayload ∧ selected s = .pend
          ∧ t = enterIdle (emit (.packet (labelOf s) s.ptype (payloadOf s)
                  (unmarshalView s.ptype (payloadOf s))) (popInput s)))
      ∨ (∃ b, ∃ hr : s.plen.val < Config.pmax, nextInput s = byteInput b ∧ s.st = .collectingPayload
          ∧ b ≠ Config.mEnd ∧ selected s = .pappend b
          ∧ t = { popInput s with
                  pbuf := s.pbuf.write s.plen.val b, plen := ⟨s.plen.val + 1, Nat.add_lt_of_lt_sub hr⟩ })
      ∨ (∃ b, nextInput s = byteInput b ∧ s.st = .collectingPayload ∧ b ≠ Config.mEnd
          ∧ ¬ s.plen.val < Config.pmax ∧ selected s = .povf b
          ∧ t = enterIdle (emit (.overflow .payload) (popInput s))) := by
  have hs : step s = exec (selected s) (popInput s) := rfl
  have hin : ∀ o, (nextInput s).rst = false → (nextInput s).rx = o → nextInput s = ⟨false, o⟩ := by
    intro o h1 h2; rw [← h1, ← h2]
  rw [hs] at h
  have hsel : selected s = decode ⟨(nextInput s).rst, (nextInput s).rx, s.st, fieldFull s⟩ := rfl
  have hc := decode_cases ⟨(nextInput s).rst, (nextInput s).rx, s.st, fieldFull s⟩
  rw [← hsel] at hc
  simp only at hc
  rcases hc with hc | hc | hc | hc | hc | hc | hc | hc | hc | hc | hc | hc
  · obtain ⟨h1, hd⟩ := hc
    rw [hd] at h; cases h
    exact .inl ⟨h1, hd, rfl⟩
  · obtain ⟨h1, h2, hd⟩ := hc
    rw [hd] at h; cases h
    exact .inr (.inl ⟨hin _ h1 h2, hd, rfl⟩)
  · obtain ⟨h1, h2, h3, hd⟩ := hc
    rw [hd] at h; cases h
    exact .inr (.inr (.inl ⟨hin _ h1 h2, h3, hd, rfl⟩))
  · obtain ⟨b, h1, h2, h3, h4, hd⟩ := hc
    rw [hd] at h; cases h
    exact .inr (.inr (.inr (.inl ⟨b, hin _ h1 h2, h3, h4, hd, rfl⟩)))
  · obtain ⟨h1, h2, h3, hd⟩ := hc
    rw [hd] at h; cases h
    exact .inr (.inr (.inr (.inr (.inl ⟨hin _ h1 h2, h3, hd, rfl⟩))))
  · obtain ⟨h1, h2, h3, hd⟩ := hc
    rw [hd] at h; cases h
    exact .inr (.inr (.inr (.inr (.inr (.inl ⟨hin _ h1 h2, h3, hd, rfl⟩)))))
  · obtain ⟨h1, h2, h3, hd⟩ := hc
    rw [hd] at h; cases h
    exact .inr (.inr (.inr (.inr (.inr (.inr (.inl ⟨hin _ h1 h2, h3, hd, rfl⟩))))))
  · obtain ⟨b, h1, h2, h3, h4, h5, hd⟩ := hc
    rw [fieldFull_label s h3] at h5
    have hr : s.llen.val < Config.lmax := by simpa using h5
    rw [hd, exec_lappend, appendLabel_room b (popInput s) hr] at h; cases h
    exact .inr (.inr (.inr (.inr (.inr (.inr (.inr (.inl ⟨b, hr, hin _ h1 h2, h3, h4, hd, rfl⟩)))))))
  · obtain ⟨b, h1, h2, h3, h4, h5, hd⟩ := hc
    rw [fieldFull_label s h3] at h5
    have hr : ¬ s.llen.val < Config.lmax := by simpa using h5
    rw [hd] at h; cases h
    exact .inr (.inr (.inr (.inr (.inr (.inr (.inr (.inr (.inl ⟨b, hin _ h1 h2, h3, h4, hr, hd, rfl⟩))))))))
  · obtain ⟨h1, h2, h3, hd⟩ := hc
    rw [hd, exec_pend, deliver_eq] at h; cases h
    exact .inr (.inr (.inr (.inr (.inr (.inr (.inr (.inr (.inr (.inl ⟨hin _ h1 h2, h3, hd, rfl⟩)))))))))
  · obtain ⟨b, h1, h2, h3, h4, h5, hd⟩ := hc
    rw [fieldFull_payload s h3] at h5
    have hr : s.plen.val < Config.pmax := by simpa using h5
    rw [hd, exec_pappend, appendPayload_room b (popInput s) hr] at h; cases h
    exact .inr (.inr (.inr (.inr (.inr (.inr (.inr (.inr (.inr (.inr (.inl
      ⟨b, hr, hin _ h1 h2, h3, h4, hd, rfl⟩))))))))))
  · obtain ⟨b, h1, h2, h3, h4, h5, hd⟩ := hc
    rw [fieldFull_payload s h3] at h5
    have hr : ¬ s.plen.val < Config.pmax := by simpa using h5
    rw [hd] at h; cases h
    exact .inr (.inr (.inr (.inr (.inr (.inr (.inr (.inr (.inr (.inr (.inr
      ⟨b, hin _ h1 h2, h3, h4, hr, hd, rfl⟩))))))))))

/-! ## Runs -/

/-- Every step answers a next state. -/
theorem step_next (s : State) : ∃ t, step s = .next t := exec_next _ _

/-- No meaning looks at the inputs: with more of them waiting it does the same and leaves them waiting. -/
theorem exec_feed (i : Instr) (is : List Input) (s t : State) (h : exec i s = .next t) :
    exec i (feed is s) = .next (feed is t) := by
  cases i
  case lappend b =>
    by_cases hr : s.llen.val < Config.lmax
    · rw [exec_lappend, appendLabel_room b s hr] at h
      cases h
      rw [exec_lappend, appendLabel_room b (feed is s) hr]
      rfl
    · rw [exec_lappend, appendLabel_full b s hr] at h
      cases h
      rw [exec_lappend, appendLabel_full b (feed is s) hr]
      rfl
  case pappend b =>
    by_cases hr : s.plen.val < Config.pmax
    · rw [exec_pappend, appendPayload_room b s hr] at h
      cases h
      rw [exec_pappend, appendPayload_room b (feed is s) hr]
      rfl
    · rw [exec_pappend, appendPayload_full b s hr] at h
      cases h
      rw [exec_pappend, appendPayload_full b (feed is s) hr]
      rfl
  case pend =>
    rw [exec_pend, deliver_eq] at h
    cases h
    rw [exec_pend, deliver_eq]
    rfl
  all_goals (cases h; rfl)

/-- A run of any machine whose first step answers a next state goes on from there. -/
theorem run_succ (M : Host.Core) (k : Nat) (s t : M.State) (h : M.step s = .next t) :
    M.run (k + 1) s = M.run k t := by simp [Host.Core.run, h]

/-- A run over no input. -/
@[simp] theorem runOver_nil (s : State) : runOver [] s = .next s := rfl

/-- A run is its first step and the run of the rest. -/
theorem runOver_cons_of_step (x : Input) (is : List Input) (s t : State)
    (h : step (feed (x :: is) s) = .next (feed is t)) : runOver (x :: is) s = runOver is t := by
  exact run_succ core is.length _ _ h

end Sys2Proof.Machine
end

