-- ==== Sys2Proof/Tests/Slice0.lean ====
section
/-! SUPPORT. Tests with expected results from spec/95_test_vectors.md and the operation rules, and for every statement
with hypotheses a state and operands that meet them. -/

namespace Sys2Proof.Tests

open Sys2Proof Sys2Proof.Machine

/-! ## Helpers -/

/-- The outcome is a next state of which the check holds. -/
def nextIs (o : Host.Outcome State Fault Refusal) (f : State → Bool) : Bool :=
  match o with
  | .next t => f t
  | .fault _ => false
  | .refused _ => false

/-- The cells from `i` on that hold the bytes, in canonical form. -/
def cellsFrom (i : Nat) : Bytes → Memory
  | [] => []
  | b :: bs => if b = Config.unwrittenCell then cellsFrom (i + 1) bs else (i, b) :: cellsFrom (i + 1) bs

/-- `CL(label)` of the vectors' notation. -/
def collLabel (l : Bytes) : State :=
  { State.reset with st := .collectingLabel, llen := Fin.ofNat Config.capLabel l.length, lbuf := cellsFrom 0 l }

/-- `CP(label, ptype, payload)` of the vectors' notation. -/
def collPayload (l : Bytes) (t : PType) (p : Bytes) : State :=
  { collLabel l with
    st := .collectingPayload, ptype := t, plen := Fin.ofNat Config.capPayload p.length, pbuf := cellsFrom 0 p }

/-- A label of 99 bytes; which bytes does not matter here, and they read as unwritten. -/
def fullLabel : State := { State.reset with st := .collectingLabel, llen := ⟨99, by decide⟩ }

/-- A payload of 99 bytes of type Char. -/
def fullPayload : State := { State.reset with st := .collectingPayload, ptype := .char, plen := ⟨99, by decide⟩ }

/-- One step from `s` with the byte presented. -/
def byteStep (s : State) (b : Byte) : Host.Outcome State Fault Refusal := step (present (byteInput b) s)

/-! ## WellFormed refuses an ill-formed term for each check -/

theorem test_noise_refuses_start : (Instr.noise 0x3C#8).wellFormed = false := by decide
theorem test_lappend_refuses_int : (Instr.lappend 0x7C#8).wellFormed = false := by decide
theorem test_lappend_refuses_int2 : (Instr.lappend 0x7E#8).wellFormed = false := by decide
theorem test_lovf_refuses_char : (Instr.lovf 0x40#8).wellFormed = false := by decide
theorem test_pappend_refuses_end : (Instr.pappend 0x3E#8).wellFormed = false := by decide
theorem test_povf_refuses_end : (Instr.povf 0x3E#8).wellFormed = false := by decide
theorem test_unmarshal_refuses_100_bytes :
    (Instr.unmarshal .char (List.replicate 100 0x61#8)).wellFormed = false := by decide
theorem test_lappend_admits_end : (Instr.lappend 0x3E#8).wellFormed = true := by decide

/-! ## Decode: words written out from 30_encoding.md R63 (state code, byte) -/

theorem test_decode_sync : decodeWord 0b000_00_00111100#13 = .ok .sync := by decide
theorem test_decode_noise : decodeWord 0b000_00_00111110#13 = .ok (.noise 0x3E#8) := by decide
theorem test_decode_ltype_int : decodeWord 0b000_01_01111100#13 = .ok .ltypeInt := by decide
theorem test_decode_ltype_int2 : decodeWord 0b000_01_01111110#13 = .ok .ltypeInt2 := by decide
theorem test_decode_ltype_char : decodeWord 0b000_01_01000000#13 = .ok .ltypeChar := by decide
theorem test_decode_lappend : decodeWord 0b000_01_00111100#13 = .ok (.lappend 0x3C#8) := by decide
theorem test_decode_lovf : decodeWord 0b100_01_01100001#13 = .ok (.lovf 0x61#8) := by decide
theorem test_decode_pend : decodeWord 0b000_10_00111110#13 = .ok .pend := by decide
theorem test_decode_pappend : decodeWord 0b000_10_01111100#13 = .ok (.pappend 0x7C#8) := by decide
theorem test_decode_povf : decodeWord 0b100_10_01100010#13 = .ok (.povf 0x62#8) := by decide
/-- Bits 10 and 11 are the model's own (log entry 10): RESET and HOLD have no decode word. -/
theorem test_decode_reset : decodeWord 0b001_00_00000000#13 = .ok .reset := by decide
theorem test_decode_hold : decodeWord 0b010_00_00000000#13 = .ok .hold := by decide
theorem test_decode_state_code_three : decodeWord 0b000_11_00111100#13 = .error .stateCodeThree := by decide
/-- The pure functions of format F are selected by no input (R63). -/
theorem test_encode_pure : encode (.decode32 0#8 0#8 0#8 0#8) = none ∧ encode (.unmarshal .char []) = none
    ∧ encode (.encode32 0#32) = none := by decide
/-- 95_test_vectors.md program 1 and 2: what the host places from the table is what runs next. -/
theorem test_placed_pend :
    nextIs (step (State.reset.withFetchWord 16 0x23E)) (fun t => t.events == [.packet [] .singleInt [] .lenMismatch])
      = true := by decide
theorem test_placed_hold : nextIs (step (State.reset.withFetchWord 0 0)) (fun t => t == State.reset) = true := by decide

/-! ## Single steps: vectors of 95_test_vectors.md -/

/-- I1. -/
theorem test_sync : nextIs (byteStep State.reset 0x3C#8) (fun t => t == collLabel []) = true := by decide
/-- I5, first byte: END in Idle is noise. -/
theorem test_noise_end :
    nextIs (byteStep State.reset 0x3E#8)
      (fun t => t.st == .idle && txStream t.events == [0x3C#8, 0x45#8, 0x72#8, 0x72#8, 0x40#8, 0x3E#8, 0x3E#8])
      = true := by decide
/-- I6: the neighbour of START. -/
theorem test_noise_neighbour :
    nextIs (byteStep State.reset 0x3D#8) (fun t => t.events == [.notice 0x3D#8]) = true := by decide
/-- L1, L2, L3. -/
theorem test_ltype_int :
    nextIs (byteStep (collLabel [0x54#8, 0x73#8]) 0x7C#8)
      (fun t => t == collPayload [0x54#8, 0x73#8] .singleInt []) = true := by decide
theorem test_ltype_int2 :
    nextIs (byteStep (collLabel [0x54#8, 0x73#8]) 0x7E#8)
      (fun t => t == collPayload [0x54#8, 0x73#8] .intPair []) = true := by decide
theorem test_ltype_char :
    nextIs (byteStep (collLabel [0x54#8, 0x73#8]) 0x40#8)
      (fun t => t == collPayload [0x54#8, 0x73#8] .char []) = true := by decide
/-- L5 and the middle byte of L8. -/
theorem test_lappend :
    nextIs (byteStep (collLabel [0x54#8]) 0x73#8) (fun t => labelOf t == [0x54#8, 0x73#8]) = true := by decide
theorem test_lappend_zero :
    nextIs (byteStep (collLabel [0x61#8]) 0x00#8) (fun t => labelOf t == [0x61#8, 0x00#8] && t.st == .collectingLabel)
      = true := by decide
/-- L10, L11. -/
theorem test_lovf :
    nextIs (byteStep fullLabel 0x61#8)
      (fun t => decide t.canonicalIdle && t.events == [.overflow .label] && t.lbuf == []) = true := by decide
theorem test_marker_at_full_label :
    nextIs (byteStep fullLabel 0x7C#8)
      (fun t => t.st == .collectingPayload && t.llen.val == 99 && t.events == []) = true := by decide
/-- P2, P4. -/
theorem test_pend_one :
    nextIs (byteStep (collPayload [0x54#8, 0x73#8] .singleInt [0#8, 0#8, 0#8, 5#8]) 0x3E#8)
      (fun t => decide t.canonicalIdle
        && t.events == [.packet [0x54#8, 0x73#8] .singleInt [0#8, 0#8, 0#8, 5#8] (.one 5#32)]) = true := by decide
theorem test_pend_mismatch :
    nextIs (byteStep (collPayload [0x4C#8] .singleInt []) 0x3E#8)
      (fun t => t.events == [.packet [0x4C#8] .singleInt [] .lenMismatch]) = true := by decide
/-- P1, P5 first byte. -/
theorem test_pappend :
    nextIs (byteStep (collPayload [0x54#8] .singleInt [0x12#8]) 0x34#8)
      (fun t => payloadOf t == [0x12#8, 0x34#8] && t.lbuf == [(0, 0x54#8)]) = true := by decide
theorem test_pappend_marker :
    nextIs (byteStep (collPayload [0x4D#8] .char []) 0x3C#8) (fun t => payloadOf t == [0x3C#8]) = true := by decide
/-- P7. -/
theorem test_povf :
    nextIs (byteStep fullPayload 0x62#8)
      (fun t => decide t.canonicalIdle && t.events == [.overflow .payload]) = true := by decide
/-- H2, H5, H7. -/
theorem test_hold : nextIs (step (collLabel [0x54#8])) (fun t => t == collLabel [0x54#8]) = true := by decide
theorem test_reset_loses_end :
    nextIs (step (present { rst := true, rx := some 0x3E#8 } (collPayload [0x54#8] .singleInt [0#8, 0#8, 0#8, 5#8])))
      (fun t => decide t.canonicalIdle && t.events == []) = true := by decide
theorem test_reset_over_overflow :
    nextIs (step (present { rst := true, rx := some 0x61#8 } fullLabel))
      (fun t => decide t.canonicalIdle && t.events == []) = true := by decide
/-- U9, U6. -/
theorem test_decode32_order :
    nextIs (exec (.decode32 0x78#8 0x56#8 0x34#8 0x12#8) State.reset)
      (fun t => t.fnResult == some (.word 2018915346#32)) = true := by decide
theorem test_decode32_unsigned : (decode32Val 0x80#8 0#8 0#8 0#8).toNat = 2147483648 := by decide
/-- U15, U16. -/
theorem test_unmarshal_two :
    nextIs (exec (.unmarshal .intPair [0#8, 0#8, 0#8, 1#8, 0xFF#8, 0xFF#8, 0xFF#8, 0xFF#8]) State.reset)
      (fun t => t.fnResult == some (.view (.two 1#32 4294967295#32))) = true := by decide
theorem test_unmarshal_four_of_pair :
    nextIs (exec (.unmarshal .intPair [0#8, 0#8, 0#8, 1#8]) State.reset)
      (fun t => t.fnResult == some (.view .lenMismatch)) = true := by decide
/-- U22. -/
theorem test_encode32 :
    nextIs (exec (.encode32 0xDEADBEEF#32) State.reset)
      (fun t => t.fnResult == some (.bytes [0xDE#8, 0xAD#8, 0xBE#8, 0xEF#8])) = true := by decide

/-! ## Interface and wire -/

/-- R30: `rx_data` is ignored while `rx_valid` is 0. -/
theorem test_pins : inputOfPins false false 0x3C#8 = idleInput ∧ inputOfPins false true 0x3C#8 = byteInput 0x3C#8 := by
  decide
/-- R9: 7 is the least width that holds 0 to 99. -/
theorem test_lenw : Config.capLabel ≤ 2 ^ Config.lenw ∧ ¬ Config.capLabel ≤ 2 ^ (Config.lenw - 1) := by decide
/-- S1: the stream of the source's first property. -/
theorem test_encode_single_int :
    encodeSingleInt [0x54#8, 0x73#8] 0x12345678#32
      = [0x3C#8, 0x54#8, 0x73#8, 0x7C#8, 0x12#8, 0x34#8, 0x56#8, 0x78#8, 0x3E#8] := by decide
/-- S4: the tx stream and the caller's stream are projections of the one history. -/
theorem test_streams :
    txStream [.notice 0x58#8, .overflow .label] = [0x3C#8, 0x45#8, 0x72#8, 0x72#8, 0x40#8, 0x58#8, 0x3E#8]
      ∧ callerStream [.notice 0x58#8, .overflow .label] = [.overflow .label] := by decide
/-- R33, R123: the signals of the step of P2. -/
theorem test_ports_pend :
    (ports (present (byteInput 0x3E#8) (collPayload [0x54#8] .singleInt [0#8, 0#8, 0#8, 5#8]))).pktV1 = some 5#32
      ∧ (ports (present (byteInput 0x3E#8) (collPayload [0x54#8] .singleInt [0#8, 0#8, 0#8, 5#8]))).pktInts = some 1#2
      ∧ (ports (present (byteInput 0x3E#8) (collPayload [0x54#8] .singleInt [0#8, 0#8, 0#8, 5#8]))).stOut = 2#2 := by
  decide

/-! ## Witnesses: the hypotheses of the statements can be met -/

theorem witness_StepKeepsInvariant :
    (collLabel [0x54#8]).Inv ∧ nextIs (step (present (byteInput 0x73#8) (collLabel [0x54#8]))) (fun _ => true) = true := by
  decide
theorem witness_EncodedOperationDecodesBack :
    (Instr.povf 0xFF#8).wellFormed = true ∧ encode (.povf 0xFF#8) = some 0x12FF#13 := by decide
theorem witness_DecodedOperationIsWellFormed :
    decodeWord 0x1FF#13 = .ok (.lappend 0xFF#8) ∧ (0x2FF#13).extractLsb' 8 2 ≠ 3#2 := by decide
theorem witness_ReservedWordsAreRefused : (0x3FF#13).extractLsb' 8 2 = 3#2 ∧ 8192 ≤ 8192 := by decide
theorem witness_StepSelectsByOperationTable :
    State.reset.st = .idle ∧ (0x3D#8 ≠ Config.mStart)
      ∧ (collLabel [0x54#8]).st = .collectingLabel ∧ (collLabel [0x54#8]).llen.val < Config.lmax
      ∧ fullLabel.st = .collectingLabel ∧ fullLabel.llen.val = Config.lmax
      ∧ (0x3E#8 ≠ Config.mInt ∧ 0x3E#8 ≠ Config.mInt2 ∧ 0x3E#8 ≠ Config.mChar)
      ∧ (collPayload [] .char []).st = .collectingPayload ∧ (collPayload [] .char []).plen.val < Config.pmax
      ∧ fullPayload.st = .collectingPayload ∧ fullPayload.plen.val = Config.pmax ∧ 0x3C#8 ≠ Config.mEnd := by decide
theorem witness_StepRunsSelectedOperation :
    (present (byteInput 0x3C#8) State.reset).inputs = [byteInput 0x3C#8] ∧ State.reset.inputs = [] := by decide
theorem witness_PlacedWordRunsNext :
    decodeTableWord 16 0x1161 = some (.lovf 0x61#8) ∧ decodeTableWord 0 0 = some .hold := by decide
theorem witness_SyncBeginsPacket : State.reset.st = .idle ∧ State.reset.regInv := by decide
theorem witness_NoiseReportsOffendingByte : State.reset.st = .idle ∧ 0x3E#8 ≠ Config.mStart := by decide
theorem witness_TypeMarkersEndLabel :
    (collLabel []).st = .collectingLabel ∧ fullLabel.st = .collectingLabel := by decide
/-- Room for exactly one byte: the clause about the counter at its maximum is met after the append. -/
theorem witness_LappendStoresLabelByte :
    let s : State := { fullLabel with llen := ⟨98, by decide⟩ }
    Memory.wf Config.lmax s.lbuf ∧ s.llen.val < Config.lmax ∧ s.st = .collectingLabel
      ∧ isTypeMarker 0x3E#8 = false ∧ nextIs (exec (.lappend 0x3E#8) s) (fun t => t.llen.val == Config.lmax) = true := by
  decide
theorem witness_OverflowAbortsPacket :
    fullLabel.st = .collectingLabel ∧ isTypeMarker 0x3C#8 = false ∧ fullLabel.llen.val = Config.lmax
      ∧ fullPayload.st = .collectingPayload ∧ 0x3C#8 ≠ Config.mEnd ∧ fullPayload.plen.val = Config.pmax := by decide
theorem witness_PendDeliversPacket :
    (collPayload [0x54#8] .char [0x61#8]).st = .collectingPayload ∧ 0 < (collPayload [0x54#8] .char [0x61#8]).llen.val
      ∧ 0 < (collPayload [0x54#8] .char [0x61#8]).plen.val := by decide
theorem witness_PappendStoresPayloadByte :
    let s : State := { fullPayload with plen := ⟨98, by decide⟩ }
    Memory.wf Config.pmax s.pbuf ∧ s.plen.val < Config.pmax ∧ s.st = .collectingPayload ∧ 0x7C#8 ≠ Config.mEnd := by
  decide
theorem witness_AppendWritesAtCounterOrOverflows :
    (collPayload [0x54#8] .char [0x61#8]).memInv ∧ (collPayload [0x54#8] .char [0x61#8]).llen.val < Config.lmax
      ∧ (collPayload [0x54#8] .char [0x61#8]).plen.val < Config.pmax
      ∧ fullLabel.memInv ∧ fullLabel.llen.val = Config.lmax
      ∧ fullPayload.memInv ∧ fullPayload.plen.val = Config.pmax := by decide
theorem witness_UnmarshalReadsIntegers :
    [0#8, 0#8, 0#8].length ≠ 4 ∧ [0#8, 0#8, 0#8, 0#8, 0#8].length ≠ 4 ∧ [0#8, 0#8, 0#8, 1#8].length ≠ 8 := by decide
theorem witness_CodecInverseLaws : encode32Bytes 0x12345678#32 = [0x12#8, 0x34#8, 0x56#8, 0x78#8] := by decide
/-- Every operation of R62 is selected in some state; also for the clauses of `PortsShowTheStep`. -/
theorem witness_NextStateTable :
    selected (present { rst := true, rx := none } State.reset) = .reset
      ∧ selected State.reset = .hold
      ∧ selected (present (byteInput 0x3C#8) State.reset) = .sync
      ∧ selected (present (byteInput 0x58#8) State.reset) = .noise 0x58#8
      ∧ selected (present (byteInput 0x7C#8) (collLabel [])) = .ltypeInt
      ∧ selected (present (byteInput 0x7E#8) (collLabel [])) = .ltypeInt2
      ∧ selected (present (byteInput 0x40#8) (collLabel [])) = .ltypeChar
      ∧ selected (present (byteInput 0x3C#8) (collLabel [])) = .lappend 0x3C#8
      ∧ selected (present (byteInput 0x3C#8) fullLabel) = .lovf 0x3C#8
      ∧ selected (present (byteInput 0x3E#8) fullPayload) = .pend
      ∧ selected (present (byteInput 0x3C#8) (collPayload [] .char [])) = .pappend 0x3C#8
      ∧ selected (present (byteInput 0x3C#8) fullPayload) = .povf 0x3C#8 := by decide
/-- A condition of each kind is reported in a state that satisfies the register invariants. -/
theorem witness_NoConditionStopsTheBlock :
    State.reset.regInv ∧ causeCode (emitted (present (byteInput 0x58#8) State.reset)) = 1
      ∧ fullLabel.regInv ∧ causeCode (emitted (present (byteInput 0x58#8) fullLabel)) = 2
      ∧ fullPayload.regInv ∧ causeCode (emitted (present (byteInput 0x58#8) fullPayload)) = 3
      ∧ (collPayload [] .intPair []).regInv
      ∧ causeCode (emitted (present (byteInput 0x3E#8) (collPayload [] .intPair []))) = 4 := by decide
theorem witness_CellsChangeOnlyByAppend :
    (collLabel [0x54#8]).memInv
      ∧ nextIs (byteStep (collLabel [0x54#8]) 0x73#8) (fun t => t.lbuf.read 1 != (collLabel [0x54#8]).lbuf.read 1) = true
      ∧ nextIs (byteStep (collPayload [] .char []) 0x73#8) (fun t => t.pbuf.read 0 != 0x00#8) = true := by decide
theorem witness_PayloadTypeIsWrittenByMarkersOnly :
    (collPayload [] .intPair []).st ≠ .idle ∧ (collPayload [] .intPair []).ptype ≠ .charPair
      ∧ nextIs (byteStep (collPayload [] .intPair []) 0x3E#8) (fun t => t.st == .idle) = true := by decide
theorem witness_CanonicalBuffersThatReadAlikeAreEqual :
    Memory.wf Config.lmax [(0, 0x54#8), (98, 0x73#8)]
      ∧ ¬ Memory.wf Config.lmax [(0, 0x54#8), (98, 0x00#8)] ∧ ¬ Memory.wf Config.lmax [(99, 0x54#8)] := by decide
/-- Two different states that no port tells apart. -/
theorem witness_HiddenCellsAreUnobservable :
    let s : State := { collLabel [0x54#8] with lbuf := [(0, 0x54#8), (5, 0x61#8)], pbuf := [(98, 0xFF#8)] }
    s ≠ collLabel [0x54#8] ∧ s.memInv ∧ (collLabel [0x54#8]).memInv ∧ sameVisible s (collLabel [0x54#8]) := by decide
theorem witness_ChunkingIsInvisible :
    nextIs (step (present (byteInput 0x3C#8) State.reset)) (fun _ => true) = true
      ∧ nextIs (runOver [byteInput 0x3C#8] State.reset) (fun _ => true) = true := by decide
theorem witness_EachNoiseByteGetsItsNotice :
    State.reset.st = .idle ∧ ∀ b ∈ [0x58#8, 0x59#8, 0x3E#8], b ≠ Config.mStart := by decide
/-- A label and a payload of the greatest length are decodable; one byte more is not. -/
theorem witness_DecodablePacketRoundTrips :
    State.reset.canonicalIdle ∧ State.reset.memInv
      ∧ decodable (List.replicate 99 0x61#8) (List.replicate 99 0x3C#8) = true ∧ decodable [] [] = true
      ∧ decodable (List.replicate 100 0x61#8) [] = false ∧ decodable [] (List.replicate 100 0x61#8) = false := by decide
theorem witness_EncodedIntegersComeBack :
    decodable [0x54#8, 0x73#8] (encode32Bytes 0x12345678#32) = true
      ∧ decodable [0x49#8, 0x70#8] (encode32Bytes 1#32 ++ encode32Bytes 4294967295#32) = true := by decide
theorem witness_NoiseBeforePacketDoesNotDisturbIt :
    State.reset.canonicalIdle ∧ State.reset.memInv ∧ (∀ b ∈ [0x58#8, 0x59#8], b ≠ Config.mStart)
      ∧ decodable [0x54#8, 0x73#8] [0#8, 0#8, 0#8, 5#8] = true := by decide
/-- The values 62 and 0x3E000000 of U23 and U24. -/
theorem witness_IntegerHoldingEndIsCutShort :
    State.reset.canonicalIdle ∧ State.reset.memInv ∧ Config.mEnd ∈ encode32Bytes 62#32
      ∧ Config.mEnd ∈ encode32Bytes 0x3E000000#32 ∧ (∀ b ∈ [0x54#8, 0x73#8], isTypeMarker b = false) := by decide
theorem witness_LabelOfCapacityBytesOverflows :
    State.reset.canonicalIdle ∧ State.reset.memInv ∧ (List.replicate 100 0x61#8).length = Config.capLabel
      ∧ ∀ b ∈ List.replicate 100 0x61#8, isTypeMarker b = false := by decide
theorem witness_PayloadOfCapacityBytesOverflows :
    State.reset.canonicalIdle ∧ State.reset.memInv ∧ [0x50#8].length ≤ Config.lmax
      ∧ (∀ b ∈ [0x50#8], isTypeMarker b = false) ∧ (List.replicate 100 0x62#8).length = Config.capPayload
      ∧ ∀ b ∈ List.replicate 100 0x62#8, b ≠ Config.mEnd := by decide
theorem witness_ConditionsRaiseTheirEvents : IntView.one 5#32 ≠ .lenMismatch ∧ IntView.noInts ≠ .lenMismatch := by
  decide
theorem witness_NoticeReceivedByPeer :
    State.reset.canonicalIdle ∧ State.reset.memInv ∧ (noticeWire 0x58#8).length = 7 ∧ 0x58#8 ≠ Config.mEnd := by decide
/-- A step that emits, and one whose counter is one below its maximum. -/
theorem witness_StepEmitsAtMostOneEvent :
    nextIs (byteStep State.reset 0x3E#8) (fun t => t.events.length == 1) = true := by decide
theorem witness_CountersNeverWrap :
    nextIs (byteStep { fullLabel with llen := ⟨98, by decide⟩ } 0x61#8) (fun t => t.llen.val == 99) = true
      ∧ nextIs (byteStep { fullPayload with plen := ⟨98, by decide⟩ } 0x62#8) (fun t => t.plen.val == 99) = true := by
  decide
theorem witness_PortsShowTheStep :
    selected (present (byteInput 0x58#8) State.reset) = .noise 0x58#8
      ∧ selected (present (byteInput 0x61#8) fullLabel) = .lovf 0x61#8
      ∧ selected (present (byteInput 0x62#8) fullPayload) = .povf 0x62#8
      ∧ selected (present (byteInput 0x3E#8) fullPayload) = .pend := by decide
theorem witness_RegisterMachineRefinesAbstractMachine :
    (collPayload [0x54#8] .char [0x61#8]).memInv := by decide
theorem witness_PacketSequenceRoundTrips :
    State.reset.canonicalIdle ∧ State.reset.memInv
      ∧ ∀ q ∈ [(([0x54#8, 0x73#8] : Bytes), PType.singleInt, ([0#8, 0#8, 0#8, 5#8] : Bytes)), ([], PType.charPair, [0x3C#8, 0x7C#8])],
          decodable q.1 q.2.2 = true := by decide
theorem witness_OversizedLabelEndsInNoise :
    (List.replicate 100 0x61#8).length = Config.capLabel ∧ (∀ b ∈ List.replicate 100 0x61#8, isTypeMarker b = false)
      ∧ ∀ b ∈ [0x61#8, 0x7C#8, 0x3E#8], b ≠ Config.mStart := by decide

end Sys2Proof.Tests
end

section
/-! The encoding family: which operation each row of the operation table selects (30_encoding.md R62), and the byte
layouts of the sender's encoders (R74 to R78). -/

namespace Sys2Proof.Machine

/-! ## The operation table, one lemma per row -/

/-- Row 1, whatever the state and the byte. -/
theorem selected_reset (rx : Option Byte) (s : State) :
    selected (present { rst := true, rx := rx } s) = .reset := rfl

/-- Row 2, whatever the state. -/
theorem selected_hold (s : State) : selected (present idleInput s) = .hold := rfl

/-- Row 3. -/
theorem selected_sync (s : State) (h : s.st = .idle) :
    selected (present (byteInput Config.mStart) s) = .sync := by
  rw [selected_present, h]
  rfl

/-- Row 4. -/
theorem selected_noise (b : Byte) (s : State) (h : s.st = .idle) (hb : b ≠ Config.mStart) :
    selected (present (byteInput b) s) = .noise b := by
  rw [selected_present, h]
  simp [decode, byteInput, hb]

/-- Row 5. -/
theorem selected_ltypeInt (s : State) (h : s.st = .collectingLabel) :
    selected (present (byteInput Config.mInt) s) = .ltypeInt := by
  rw [selected_present, h]
  rfl

/-- Row 6. -/
theorem selected_ltypeInt2 (s : State) (h : s.st = .collectingLabel) :
    selected (present (byteInput Config.mInt2) s) = .ltypeInt2 := by
  rw [selected_present, h]
  rfl

/-- Row 7. -/
theorem selected_ltypeChar (s : State) (h : s.st = .collectingLabel) :
    selected (present (byteInput Config.mChar) s) = .ltypeChar := by
  rw [selected_present, h]
  rfl

/-- Row 8. -/
theorem selected_lappend (b : Byte) (s : State) (h : s.st = .collectingLabel) (h1 : b ≠ Config.mInt)
    (h2 : b ≠ Config.mInt2) (h3 : b ≠ Config.mChar) (hr : s.llen.val < Config.lmax) :
    selected (present (byteInput b) s) = .lappend b := by
  rw [selected_present, fieldFull_label s h, decide_eq_true hr, h]
  simp [decode, byteInput, h1, h2, h3]

/-- Row 9. -/
theorem selected_lovf (b : Byte) (s : State) (h : s.st = .collectingLabel) (h1 : b ≠ Config.mInt)
    (h2 : b ≠ Config.mInt2) (h3 : b ≠ Config.mChar) (hf : s.llen.val = Config.lmax) :
    selected (present (byteInput b) s) = .lovf b := by
  rw [selected_present, fieldFull_label s h, decide_eq_false hf.not_lt, h]
  simp [decode, byteInput, h1, h2, h3]

/-- Row 10. -/
theorem selected_pend (s : State) (h : s.st = .collectingPayload) :
    selected (present (byteInput Config.mEnd) s) = .pend := by
  rw [selected_present, h]
  rfl

/-- Row 11. -/
theorem selected_pappend (b : Byte) (s : State) (h : s.st = .collectingPayload) (hb : b ≠ Config.mEnd)
    (hr : s.plen.val < Config.pmax) : selected (present (byteInput b) s) = .pappend b := by
  rw [selected_present, fieldFull_payload s h, decide_eq_true hr, h]
  simp [decode, byteInput, hb]

/-- Row 12. -/
theorem selected_povf (b : Byte) (s : State) (h : s.st = .collectingPayload) (hb : b ≠ Config.mEnd)
    (hf : s.plen.val = Config.pmax) : selected (present (byteInput b) s) = .povf b := by
  rw [selected_present, fieldFull_payload s h, decide_eq_false hf.not_lt, h]
  simp [decode, byteInput, hb]

/-! ## No input selects a pure function -/

/-- Every operation that a selection decodes to has a word of its own: it is in one of the twelve rows. -/
theorem encode_decode_ne_none (x : Selection) : encode (decode x) ≠ none := by
  obtain ⟨_, h⟩ | ⟨_, _, h⟩ | ⟨_, _, _, h⟩ | ⟨_, _, _, _, _, h⟩ | ⟨_, _, _, h⟩ | ⟨_, _, _, h⟩ | ⟨_, _, _, h⟩
    | ⟨_, _, _, _, _, _, h⟩ | ⟨_, _, _, _, _, _, h⟩ | ⟨_, _, _, h⟩ | ⟨_, _, _, _, _, _, h⟩
    | ⟨_, _, _, _, _, _, h⟩ := decode_cases x
  all_goals rw [h]; exact Option.some_ne_none _

/-- An operation without a word, which is a pure function of format F, is not what a step performs. -/
theorem selected_ne_of_encode_eq_none (s : State) {i : Instr} (hi : encode i = none) : selected s ≠ i := by
  intro h
  exact encode_decode_ne_none _ (h ▸ hi)

/-- Settles O9: one lemma per row of R62, and a pure function has no word that could select it. -/
theorem stepSelectsByOperationTable : Obligations.StepSelectsByOperationTable := by
  refine ⟨fun s rx => selected_reset rx s, selected_hold, selected_sync, fun s b => selected_noise b s, ?types,
    ?labelByte, selected_pend, ?payloadByte, ?pure⟩
  case types => exact fun s h => ⟨selected_ltypeInt s h, selected_ltypeInt2 s h, selected_ltypeChar s h⟩
  case labelByte =>
    exact fun s b h h1 h2 h3 => ⟨selected_lappend b s h h1 h2 h3, selected_lovf b s h h1 h2 h3⟩
  case payloadByte => exact fun s b h hb => ⟨selected_pappend b s h hb, selected_povf b s h hb⟩
  case pure =>
    exact fun s => ⟨fun _ _ _ _ => selected_ne_of_encode_eq_none s rfl,
      fun _ _ => selected_ne_of_encode_eq_none s rfl, fun _ => selected_ne_of_encode_eq_none s rfl⟩

/-! ## The sender's encoders -/

/-- The two integers of an IntPair stand one after the other between the INT2 marker and END (R75). -/
theorem encodeIntPair_eq (label : Bytes) (v1 v2 : U32) :
    encodeIntPair label v1 v2
      = [Config.mStart] ++ label ++ [Config.mInt2] ++ encode32Bytes v1 ++ encode32Bytes v2 ++ [Config.mEnd] := by
  simp only [encodeIntPair, encodePacket, typeMarker, List.append_assoc]

/-- A CharPair is sent as the Char packet of its two bytes, the marker being the same (R68, R77). -/
theorem encodeCharPair_eq_encodeChar (label : Bytes) (c1 c2 : Byte) :
    encodeCharPair label c1 c2 = encodeChar label [c1, c2] := rfl

/-- Settles O50: each encoder is format P (R65) with its own marker and payload; only the two integers of
`encodeIntPair` have to be regrouped. -/
theorem encodersExpandToBytes : Obligations.EncodersExpandToBytes := by
  intro label data message value v1 v2 c1 c2
  exact ⟨rfl, encodeIntPair_eq label v1 v2, rfl, rfl, encodeCharPair_eq_encodeChar label c1 c2, rfl⟩

end Sys2Proof.Machine
end

section
/-! The Idle family: SYNC begins a packet (40_idle.md R91). -/

namespace Sys2Proof.Machine

/-! ## The event of a step, read off its next state -/

/-- The event of a step is what its next state adds to the history (R36). -/
theorem emitted_of_step (s t : State) (h : step s = .next t) :
    emitted s = (t.events.drop s.events.length).head? := by
  rw [emitted, h]

/-- A step that leaves the history as it was emits no event. -/
theorem emitted_eq_none_of_step (s t : State) (h : step s = .next t) (he : t.events = s.events) :
    emitted s = none := by
  rw [emitted_of_step s t h, he, List.drop_length, List.head?_nil]

/-! ## SYNC -/

/-- SYNC emits no event. -/
theorem emitted_sync (s : State) (h : s.st = .idle) :
    emitted (present (byteInput Config.mStart) s) = none :=
  emitted_eq_none_of_step _ _ (step_sync s h) rfl

/-- In CollectingLabel with room START is a label byte, for it is no type marker (R91, corner case (b)). -/
theorem selected_lappend_start (s : State) (h : s.st = .collectingLabel) (hr : s.llen.val < Config.lmax) :
    selected (present (byteInput Config.mStart) s) = .lappend Config.mStart :=
  selected_lappend Config.mStart s h (by decide) (by decide) (by decide) hr

/-- The decode word of SYNC (R91). -/
theorem decodeTableWord_sync : decodeTableWord 16 0x03C = some .sync := by decide

/-- Settles O14: in Idle the step is SYNC, whose effect leaves the history alone; after it the label buffer is empty,
so a second START finds room and is appended. -/
theorem syncBeginsPacket : Obligations.SyncBeginsPacket := by
  refine fun s => ⟨exec_sync s, fun hidle => ?inIdle, ?second, decodeTableWord_sync⟩
  case inIdle =>
    exact ⟨selected_sync s hidle, step_sync s hidle, emitted_sync s hidle, fun hinv => hinv.1 hidle⟩
  case second => exact selected_lappend_start _ rfl (show (0 : Nat) < Config.lmax by decide)

end Sys2Proof.Machine
end

section
/-! The label family: LAPPEND stores a label byte (41_label.md R104). -/

namespace Sys2Proof.Machine

/-! ## Which bytes are label bytes -/

/-- The three type markers are below 0x80, so no byte from there on is one (R104). -/
theorem isTypeMarker_eq_false_of_le (c : Byte) (hc : 0x80#8 ≤ c) : isTypeMarker c = false := by
  have ne_of_lt (m : Byte) (hm : m < 0x80#8) : c ≠ m :=
    fun h => BitVec.not_lt.2 hc (h ▸ hm)
  simp [isTypeMarker, ne_of_lt]

/-! ## The decode word -/

/-- What a selection word decodes to is what the table's decoder reads from its number. -/
theorem decodeTableWord_toNat (w : SelWord) (i : Instr) (h : decodeWord w = .ok i) :
    decodeTableWord 16 w.toNat = some i := by
  have hw : w.toNat < 8192 := w.isLt
  have hnat : tableNat 16 w.toNat = w.toNat := Nat.mod_eq_of_lt (hw.trans (by decide))
  rw [decodeTableWord, hnat, decodeNat, if_pos hw, BitVec.ofNat_toNat, BitVec.setWidth_eq, h]

/-- The number of the word of LAPPEND: state code 1 above the byte (R63). -/
theorem toNat_selWord_lappend (b : Byte) :
    (selWord false false false .collectingLabel b).toNat = 0x100 + b.toNat := by
  rw [selWord, BitVec.toNat_append, ← Nat.shiftLeft_add_eq_or_of_lt b.isLt]
  rfl

/-- The decode word of LAPPEND of a byte (R104). -/
theorem decodeTableWord_lappend (b : Byte) (hb : isTypeMarker b = false) :
    decodeTableWord 16 (0x100 + b.toNat) = some (.lappend b) := by
  have hwf : (Instr.lappend b).wellFormed = true := by rw [Instr.wellFormed, hb]; rfl
  rw [← toNat_selWord_lappend]
  exact decodeTableWord_toNat _ _ (Laws.RoundTrip.lappend b hwf _ rfl)

/-! ## The state after an append with room, field by field -/

section AppendLabel

variable (b : Byte) (s : State) (h : s.llen.val < Config.lmax)
include h

theorem appendLabel_st : (appendLabel b s).st = s.st := by rw [appendLabel_room b s h]
theorem appendLabel_ptype : (appendLabel b s).ptype = s.ptype := by rw [appendLabel_room b s h]
theorem appendLabel_plen : (appendLabel b s).plen = s.plen := by rw [appendLabel_room b s h]
theorem appendLabel_pbuf : (appendLabel b s).pbuf = s.pbuf := by rw [appendLabel_room b s h]
theorem appendLabel_inputs : (appendLabel b s).inputs = s.inputs := by rw [appendLabel_room b s h]
theorem appendLabel_events : (appendLabel b s).events = s.events := by rw [appendLabel_room b s h]
theorem appendLabel_fnResult : (appendLabel b s).fnResult = s.fnResult := by rw [appendLabel_room b s h]
theorem appendLabel_llen : (appendLabel b s).llen.val = s.llen.val + 1 := by rw [appendLabel_room b s h]

/-- The byte stands at the old counter, and every other cell is as it was (R104). -/
theorem appendLabel_read (hm : Memory.wf Config.lmax s.lbuf) (a : Nat) :
    (appendLabel b s).lbuf.read a = if a = s.llen.val then b else s.lbuf.read a := by
  rw [appendLabel_room b s h]
  exact Memory.read_write Config.lmax s.lbuf hm s.llen.val a b

end AppendLabel

/-! ## LAPPEND as a step -/

/-- LAPPEND emits no event. -/
theorem emitted_lappend (b : Byte) (s : State) (h : s.st = .collectingLabel) (hb : isTypeMarker b = false)
    (hr : s.llen.val < Config.lmax) : emitted (present (byteInput b) s) = none :=
  emitted_eq_none_of_step _ _ (step_lappend b s h hb hr) (appendLabel_events b s hr)

/-- At the maximum a label byte overflows and a type marker still ends the label: the marker is looked for before
the room (R100, R104). -/
theorem selected_at_lmax (t : State) (h : t.st = .collectingLabel) (hf : t.llen.val = Config.lmax) :
    (∀ c : Byte, isTypeMarker c = false → selected (present (byteInput c) t) = .lovf c)
      ∧ selected (present (byteInput Config.mInt) t) = .ltypeInt
      ∧ selected (present (byteInput Config.mInt2) t) = .ltypeInt2
      ∧ selected (present (byteInput Config.mChar) t) = .ltypeChar := by
  refine ⟨fun c hc => ?_, selected_ltypeInt t h, selected_ltypeInt2 t h, selected_ltypeChar t h⟩
  obtain ⟨h1, h2, h3⟩ := not_isTypeMarker c hc
  exact selected_lovf c t h h1 h2 h3 hf

/-- Settles O17: with room LAPPEND is the append, which changes the cell at the counter and the counter alone; it
leaves the block in CollectingLabel, where the counter at its maximum selects LOVF. -/
theorem lappendStoresLabelByte : Obligations.LappendStoresLabelByte := by
  intro s b hm hr
  refine ⟨appendLabel b s, exec_lappend b s, appendLabel_st b s hr, appendLabel_ptype b s hr,
    appendLabel_plen b s hr, appendLabel_pbuf b s hr, appendLabel_inputs b s hr, appendLabel_events b s hr,
    appendLabel_fnResult b s hr, appendLabel_llen b s hr, appendLabel_read b s hr hm,
    labelOf_appendLabel b s hm hr, decodeTableWord_lappend b, ?inLabel, ?labelBytes⟩
  case inLabel =>
    intro hst hb
    obtain ⟨h1, h2, h3⟩ := not_isTypeMarker b hb
    have hst' : (appendLabel b s).st = .collectingLabel := (appendLabel_st b s hr).trans hst
    exact ⟨selected_lappend b s hst h1 h2 h3 hr, step_lappend b s hst hb hr, emitted_lappend b s hst hb hr,
      Nat.le_of_lt_succ (appendLabel b s).llen.isLt, selected_at_lmax _ hst', step_hold _⟩
  case labelBytes => exact ⟨by decide, by decide, by decide, isTypeMarker_eq_false_of_le⟩

end Sys2Proof.Machine
end

section
/-! The payload family: PAPPEND stores a payload byte (42_payload.md R112). -/

namespace Sys2Proof.Machine

/-! ## The decode word -/

/-- The number of the word of PAPPEND: state code 2 above the byte (R63). -/
theorem toNat_selWord_pappend (b : Byte) :
    (selWord false false false .collectingPayload b).toNat = 0x200 + b.toNat := by
  rw [selWord, BitVec.toNat_append, ← Nat.shiftLeft_add_eq_or_of_lt b.isLt]
  rfl

/-- The decode word of PAPPEND of a byte (R112). -/
theorem decodeTableWord_pappend (b : Byte) (hb : b ≠ Config.mEnd) :
    decodeTableWord 16 (0x200 + b.toNat) = some (.pappend b) := by
  have hwf : (Instr.pappend b).wellFormed = true := bne_iff_ne.2 hb
  rw [← toNat_selWord_pappend]
  exact decodeTableWord_toNat _ _ (Laws.RoundTrip.pappend b hwf _ rfl)

/-! ## The state after an append with room, field by field -/

section AppendPayload

variable (b : Byte) (s : State) (h : s.plen.val < Config.pmax)
include h

theorem appendPayload_st : (appendPayload b s).st = s.st := by rw [appendPayload_room b s h]
theorem appendPayload_ptype : (appendPayload b s).ptype = s.ptype := by rw [appendPayload_room b s h]
theorem appendPayload_llen : (appendPayload b s).llen = s.llen := by rw [appendPayload_room b s h]
theorem appendPayload_lbuf : (appendPayload b s).lbuf = s.lbuf := by rw [appendPayload_room b s h]
theorem appendPayload_inputs : (appendPayload b s).inputs = s.inputs := by rw [appendPayload_room b s h]
theorem appendPayload_events : (appendPayload b s).events = s.events := by rw [appendPayload_room b s h]
theorem appendPayload_fnResult : (appendPayload b s).fnResult = s.fnResult := by rw [appendPayload_room b s h]
theorem appendPayload_plen : (appendPayload b s).plen.val = s.plen.val + 1 := by rw [appendPayload_room b s h]

/-- The byte stands at the old counter, and every other cell is as it was (R112). -/
theorem appendPayload_read (hm : Memory.wf Config.pmax s.pbuf) (a : Nat) :
    (appendPayload b s).pbuf.read a = if a = s.plen.val then b else s.pbuf.read a := by
  rw [appendPayload_room b s h]
  exact Memory.read_write Config.pmax s.pbuf hm s.plen.val a b

end AppendPayload

/-! ## PAPPEND as a step -/

/-- PAPPEND emits no event. -/
theorem emitted_pappend (b : Byte) (s : State) (h : s.st = .collectingPayload) (hb : b ≠ Config.mEnd)
    (hr : s.plen.val < Config.pmax) : emitted (present (byteInput b) s) = none :=
  emitted_eq_none_of_step _ _ (step_pappend b s h hb hr) (appendPayload_events b s hr)

/-- Settles O20: with room PAPPEND is the append, which changes the cell at the counter and the counter alone; no
test looks at the recorded type or the length so far, so only END, which is PEND, is not stored. -/
theorem pappendStoresPayloadByte : Obligations.PappendStoresPayloadByte := by
  intro s b hm hr
  refine ⟨appendPayload b s, exec_pappend b s, appendPayload_st b s hr, appendPayload_ptype b s hr,
    appendPayload_llen b s hr, appendPayload_lbuf b s hr, appendPayload_inputs b s hr, appendPayload_events b s hr,
    appendPayload_fnResult b s hr, appendPayload_plen b s hr, appendPayload_read b s hr hm,
    payloadOf_appendPayload b s hm hr, decodeTableWord_pappend b, ?inPayload⟩
  case inPayload =>
    exact fun hst => ⟨fun hb => ⟨selected_pappend b s hst hb hr, step_pappend b s hst hb hr,
      emitted_pappend b s hst hb hr⟩, selected_pend s hst, step_hold _⟩

end Sys2Proof.Machine
end

section
/-! The stream family: HOLD, run any number of times (44_stream.md R136), and the next-state table (R137). -/

namespace Sys2Proof.Machine

/-! ## HOLD -/

/-- HOLD emits no event. -/
theorem emitted_hold (s : State) : emitted (present idleInput s) = none :=
  emitted_eq_none_of_step _ _ (step_hold s) rfl

/-- HOLD repeats without bound: a run in which nothing is presented ends where it began. -/
theorem runOver_replicate_idleInput (n : Nat) (s : State) :
    runOver (List.replicate n idleInput) s = .next s := by
  induction n with
  | zero => exact runOver_nil s
  | succ n ih =>
    have hstep := step_hold (feed (List.replicate n idleInput) s)
    rw [List.replicate_succ, runOver_cons_of_step idleInput _ s s hstep, ih]

/-- Settles O13: one HOLD is the identity and emits nothing, so by induction any number of them is. -/
theorem holdChangesNothing : Obligations.HoldChangesNothing :=
  fun s => ⟨exec_hold s, selected_hold s, step_hold s, emitted_hold s, fun n => runOver_replicate_idleInput n s⟩

/-! ## The next-state table -/

/-- A step that adds one event to the history emits that event. -/
theorem emitted_eq_some_of_step (s t : State) (e : Event) (h : step s = .next t)
    (he : t.events = s.events ++ [e]) : emitted s = some e := by
  rw [emitted_of_step s t h, he, List.drop_left, List.head?_cons]

/-- The rows of R137 for a step from `s`: the operation, the state after and the event. A row that names a state
before asks for it; a row that stays gives `s.st` as the state after. -/
inductive TableRow (s : State) : Instr → St → Option Event → Prop where
  | reset : TableRow s .reset .idle none
  | hold : TableRow s .hold s.st none
  | sync (h : s.st = .idle) : TableRow s .sync .collectingLabel none
  | noise (b : Byte) (h : s.st = .idle) : TableRow s (.noise b) s.st (some (.notice b))
  | ltypeInt (h : s.st = .collectingLabel) : TableRow s .ltypeInt .collectingPayload none
  | ltypeInt2 (h : s.st = .collectingLabel) : TableRow s .ltypeInt2 .collectingPayload none
  | ltypeChar (h : s.st = .collectingLabel) : TableRow s .ltypeChar .collectingPayload none
  | lappend (b : Byte) (h : s.st = .collectingLabel) : TableRow s (.lappend b) s.st none
  | lovf (b : Byte) (h : s.st = .collectingLabel) : TableRow s (.lovf b) .idle (some (.overflow .label))
  | pend (h : s.st = .collectingPayload) :
      TableRow s .pend .idle
        (some (.packet (labelOf s) s.ptype (payloadOf s) (unmarshalView s.ptype (payloadOf s))))
  | pappend (b : Byte) (h : s.st = .collectingPayload) : TableRow s (.pappend b) s.st none
  | povf (b : Byte) (h : s.st = .collectingPayload) : TableRow s (.povf b) .idle (some (.overflow .payload))

/-- Every step is a row of the table. -/
theorem tableRow_of_step (s t : State) (h : step s = .next t) : TableRow s (selected s) t.st (emitted s) := by
  have quiet (he : t.events = s.events) : emitted s = none := emitted_eq_none_of_step s t h he
  have reports (e : Event) (he : t.events = s.events ++ [e]) : emitted s = some e :=
    emitted_eq_some_of_step s t e h he
  obtain ⟨_, hsel, rfl⟩ | ⟨_, hsel, rfl⟩ | ⟨_, hst, hsel, rfl⟩ | ⟨b, _, hst, _, hsel, rfl⟩
    | ⟨_, hst, hsel, rfl⟩ | ⟨_, hst, hsel, rfl⟩ | ⟨_, hst, hsel, rfl⟩ | ⟨b, _, _, hst, _, hsel, rfl⟩
    | ⟨b, _, hst, _, _, hsel, rfl⟩ | ⟨_, hst, hsel, rfl⟩ | ⟨b, _, _, hst, _, hsel, rfl⟩
    | ⟨b, _, hst, _, _, hsel, rfl⟩ := step_cases s t h
  · rw [hsel, quiet rfl]; exact .reset
  · rw [hsel, quiet rfl]; exact .hold
  · rw [hsel, quiet rfl]; exact .sync hst
  · rw [hsel, reports _ rfl]; exact .noise b hst
  · rw [hsel, quiet rfl]; exact .ltypeInt hst
  · rw [hsel, quiet rfl]; exact .ltypeInt2 hst
  · rw [hsel, quiet rfl]; exact .ltypeChar hst
  · rw [hsel, quiet rfl]; exact .lappend b hst
  · rw [hsel, reports _ rfl]; exact .lovf b hst
  · rw [hsel, reports _ rfl]; exact .pend hst
  · rw [hsel, quiet rfl]; exact .pappend b hst
  · rw [hsel, reports _ rfl]; exact .povf b hst

/-- Inside a packet START is no marker: it is appended or it overflows. -/
theorem selected_start_of_not_idle (s : State) (h : s.st ≠ .idle) (hin : nextInput s = byteInput Config.mStart) :
    ∃ b, selected s = .lappend b ∨ selected s = .lovf b ∨ selected s = .pappend b ∨ selected s = .povf b := by
  refine ⟨Config.mStart, ?_⟩
  rw [selected, hin]
  cases hst : s.st with
  | idle => exact absurd hst h
  | collectingLabel =>
    cases fieldFull s
    · exact .inl rfl
    · exact .inr (.inl rfl)
  | collectingPayload =>
    cases fieldFull s
    · exact .inr (.inr (.inl rfl))
    · exact .inr (.inr (.inr rfl))

namespace TableRow

variable {s : State} {i : Instr} {q : St} {e : Option Event}

/-- From Idle: the markers that enter CollectingPayload are looked for in CollectingLabel only. -/
theorem not_idle_to_collectingPayload (row : TableRow s i q e) : ¬ (s.st = .idle ∧ q = .collectingPayload) := by
  rintro ⟨hst, hq⟩
  cases row with
  | ltypeInt h | ltypeInt2 h | ltypeChar h => exact absurd (hst.symm.trans h) nofun
  | hold | noise _ _ | lappend _ _ | pappend _ _ => exact absurd (hst.symm.trans hq) nofun
  | reset | sync _ | lovf _ _ | pend _ | povf _ _ => exact nomatch hq

/-- From CollectingPayload: only SYNC enters CollectingLabel, and it starts from Idle. -/
theorem not_collectingPayload_to_collectingLabel (row : TableRow s i q e) :
    ¬ (s.st = .collectingPayload ∧ q = .collectingLabel) := by
  rintro ⟨hst, hq⟩
  cases row with
  | sync h => exact absurd (hst.symm.trans h) nofun
  | hold | noise _ _ | lappend _ _ | pappend _ _ => exact absurd (hst.symm.trans hq) nofun
  | reset | ltypeInt _ | ltypeInt2 _ | ltypeChar _ | lovf _ _ | pend _ | povf _ _ => exact nomatch hq

/-- From inside a packet to Idle: a row that stays does not leave the packet, and a marker that enters a field does
not enter Idle. -/
theorem cases_of_return_to_idle (row : TableRow s i q e) (hst : s.st ≠ .idle) (hq : q = .idle) :
    i = .reset ∨ i = .pend ∨ (∃ b, i = .lovf b) ∨ ∃ b, i = .povf b := by
  cases row with
  | reset => exact .inl rfl
  | pend _ => exact .inr (.inl rfl)
  | lovf b _ => exact .inr (.inr (.inl ⟨b, rfl⟩))
  | povf b _ => exact .inr (.inr (.inr ⟨b, rfl⟩))
  | hold | noise _ _ | lappend _ _ | pappend _ _ => exact absurd hq hst
  | sync _ | ltypeInt _ | ltypeInt2 _ | ltypeChar _ => exact nomatch hq

/-- A data byte inside a packet is stored where the block stands, or it overflows. -/
theorem stays_or_overflows (row : TableRow s i q e)
    (hi : ∃ b, i = .lappend b ∨ i = .lovf b ∨ i = .pappend b ∨ i = .povf b) :
    q = s.st ∨ ∃ w, e = some (.overflow w) := by
  obtain ⟨b, rfl | rfl | rfl | rfl⟩ := hi
  · cases row with | lappend => exact .inl rfl
  · cases row with | lovf => exact .inr ⟨.label, rfl⟩
  · cases row with | pappend => exact .inl rfl
  · cases row with | povf => exact .inr ⟨.payload, rfl⟩

end TableRow

/-- Settles O26: every step is a row of the table, so each clause is read off the row of its operation, or off all
rows for the transitions that no row has. -/
theorem nextStateTable : Obligations.NextStateTable := by
  intro s
  obtain ⟨t, ht⟩ := step_next s
  have row := tableRow_of_step s t ht
  have hstart := selected_start_of_not_idle s
  refine ⟨t, ht, ?_⟩
  generalize selected s = i at row hstart ⊢
  generalize emitted s = e at row ⊢
  generalize t.st = q at row ⊢
  refine ⟨?reset, ?hold, ?sync, ?noise, ?types, ?lappend, ?lovf, ?pend, ?pappend, ?povf,
    row.not_idle_to_collectingPayload, row.not_collectingPayload_to_collectingLabel,
    row.cases_of_return_to_idle, fun hst hin => row.stays_or_overflows (hstart hst hin)⟩
  case reset => rintro rfl; cases row with | reset => exact ⟨rfl, rfl⟩
  case hold => rintro rfl; cases row with | hold => exact ⟨rfl, rfl⟩
  case sync => rintro rfl; cases row with | sync h => exact ⟨h, rfl, rfl⟩
  case noise => rintro b rfl; cases row with | noise _ h => exact ⟨h, h, rfl⟩
  case types =>
    rintro (rfl | rfl | rfl)
    · cases row with | ltypeInt h => exact ⟨h, rfl, rfl⟩
    · cases row with | ltypeInt2 h => exact ⟨h, rfl, rfl⟩
    · cases row with | ltypeChar h => exact ⟨h, rfl, rfl⟩
  case lappend => rintro b rfl; cases row with | lappend _ h => exact ⟨h, h, rfl⟩
  case lovf => rintro b rfl; cases row with | lovf _ h => exact ⟨h, rfl, rfl⟩
  case pend => rintro rfl; cases row with | pend h => exact ⟨h, rfl, rfl⟩
  case pappend => rintro b rfl; cases row with | pappend _ h => exact ⟨h, h, rfl⟩
  case povf => rintro b rfl; cases row with | povf _ h => exact ⟨h, rfl, rfl⟩

end Sys2Proof.Machine
end

section
/-! What one step does, as an inductive view with one constructor per row of the operation table (30_encoding.md R62),
and what a run over inputs is (44_stream.md R138, R139). -/

namespace Sys2Proof.Machine

/-! ## The view of a step -/

/-- The step from `s` with the input `x` consumed: the operation performed and the next state. A constructor's
hypotheses are all that selects its row. -/
inductive StepView (s : State) : Input → Instr → State → Prop where
  | reset (rx : Option Byte) : StepView s { rst := true, rx := rx } .reset (enterIdle s)
  | hold : StepView s idleInput .hold s
  | sync (hst : s.st = .idle) :
      StepView s (byteInput Config.mStart) .sync { s with llen := 0, st := .collectingLabel }
  | noise (b : Byte) (hst : s.st = .idle) (hb : b ≠ Config.mStart) :
      StepView s (byteInput b) (.noise b) (emit (.notice b) s)
  | ltypeInt (hst : s.st = .collectingLabel) :
      StepView s (byteInput Config.mInt) .ltypeInt (endLabel .singleInt s)
  | ltypeInt2 (hst : s.st = .collectingLabel) :
      StepView s (byteInput Config.mInt2) .ltypeInt2 (endLabel .intPair s)
  | ltypeChar (hst : s.st = .collectingLabel) :
      StepView s (byteInput Config.mChar) .ltypeChar (endLabel .char s)
  | lappend (b : Byte) (hst : s.st = .collectingLabel) (hb : isTypeMarker b = false)
      (hr : s.llen.val < Config.lmax) : StepView s (byteInput b) (.lappend b) (appendLabel b s)
  | lovf (b : Byte) (hst : s.st = .collectingLabel) (hb : isTypeMarker b = false)
      (hr : ¬ s.llen.val < Config.lmax) :
      StepView s (byteInput b) (.lovf b) (enterIdle (emit (.overflow .label) s))
  | pend (hst : s.st = .collectingPayload) :
      StepView s (byteInput Config.mEnd) .pend
        (enterIdle (emit (.packet (labelOf s) s.ptype (payloadOf s) (unmarshalView s.ptype (payloadOf s))) s))
  | pappend (b : Byte) (hst : s.st = .collectingPayload) (hb : b ≠ Config.mEnd)
      (hr : s.plen.val < Config.pmax) : StepView s (byteInput b) (.pappend b) (appendPayload b s)
  | povf (b : Byte) (hst : s.st = .collectingPayload) (hb : b ≠ Config.mEnd)
      (hr : ¬ s.plen.val < Config.pmax) :
      StepView s (byteInput b) (.povf b) (enterIdle (emit (.overflow .payload) s))

/-- Every step is one of the view's rows, from the state with its input consumed. -/
theorem stepView_of_step (s t : State) (h : step s = .next t) :
    StepView (popInput s) (nextInput s) (selected s) t := by
  obtain ⟨hrst, hsel, rfl⟩ | ⟨hin, hsel, rfl⟩ | ⟨hin, hst, hsel, rfl⟩ | ⟨b, hin, hst, hb, hsel, rfl⟩
    | ⟨hin, hst, hsel, rfl⟩ | ⟨hin, hst, hsel, rfl⟩ | ⟨hin, hst, hsel, rfl⟩ | ⟨b, hr, hin, hst, hb, hsel, rfl⟩
    | ⟨b, hin, hst, hb, hr, hsel, rfl⟩ | ⟨hin, hst, hsel, rfl⟩ | ⟨b, hr, hin, hst, hb, hsel, rfl⟩
    | ⟨b, hin, hst, hb, hr, hsel, rfl⟩ := step_cases s t h
  · have hin : nextInput s = { rst := true, rx := (nextInput s).rx } := by rw [← hrst]
    rw [hsel, hin]
    exact .reset _
  · rw [hsel, hin]; exact .hold
  · rw [hsel, hin]; exact .sync hst
  · rw [hsel, hin]; exact .noise b hst hb
  · rw [hsel, hin]; exact .ltypeInt hst
  · rw [hsel, hin]; exact .ltypeInt2 hst
  · rw [hsel, hin]; exact .ltypeChar hst
  · rw [hsel, hin]
    exact (appendLabel_room b (popInput s) hr) ▸ .lappend b hst hb hr
  · rw [hsel, hin]; exact .lovf b hst hb hr
  · rw [hsel, hin]; exact .pend hst
  · rw [hsel, hin]
    exact (appendPayload_room b (popInput s) hr) ▸ .pappend b hst hb hr
  · rw [hsel, hin]; exact .povf b hst hb hr

/-- The view of a step whose input is presented first. -/
theorem stepView_of_step_present (x : Input) (s t : State) (h : step (present x s) = .next t) :
    StepView s x (selected (present x s)) t := stepView_of_step (present x s) t h

/-- A step consumes its input and no other, and leaves the result field of the pure functions (log entry 3). -/
theorem StepView.inputs_and_fnResult {s t : State} {x : Input} {i : Instr} (v : StepView s x i t) :
    t.inputs = s.inputs ∧ t.fnResult = s.fnResult := by
  cases v with
  | lappend b _ _ hr => exact ⟨appendLabel_inputs b s hr, appendLabel_fnResult b s hr⟩
  | pappend b _ _ hr => exact ⟨appendPayload_inputs b s hr, appendPayload_fnResult b s hr⟩
  | reset | hold | sync | noise | ltypeInt | ltypeInt2 | ltypeChar | lovf | pend | povf => exact ⟨rfl, rfl⟩

/-! ## Runs -/

/-- A step looks at its own input only: with more of them waiting behind it, it does the same. -/
theorem step_feed (x : Input) (is : List Input) (s t : State) (h : step (present x s) = .next t) :
    step (feed (x :: is) s) = .next (feed is t) :=
  exec_feed (selected (present x s)) is s t h

/-- A run is its first step and the run of the rest (R138). -/
theorem runOver_cons (x : Input) (is : List Input) (s t : State) (h : step (present x s) = .next t) :
    runOver (x :: is) s = runOver is t :=
  runOver_cons_of_step x is s t (step_feed x is s t h)

/-- A run over two sequences is the run over the second from where the first ends (R139). -/
theorem runOver_append (a b : List Input) (s t : State) (h : runOver a s = .next t) :
    runOver (a ++ b) s = runOver b t := by
  induction a generalizing s with
  | nil => cases h; rfl
  | cons x a ih =>
    obtain ⟨u, hu⟩ := step_next (present x s)
    rw [runOver_cons x a s u hu] at h
    rw [List.cons_append, runOver_cons x (a ++ b) s u hu, ih u h]

/-- Every run answers a next state. -/
theorem runOver_next (is : List Input) (s : State) : ∃ t, runOver is s = .next t := by
  induction is generalizing s with
  | nil => exact ⟨s, rfl⟩
  | cons x is ih =>
    obtain ⟨u, hu⟩ := step_next (present x s)
    rw [runOver_cons x is s u hu]
    exact ih u

/-- A step without a byte can be put in anywhere: it is a HOLD (R136, R139). -/
theorem runOver_insert_idleInput (a b : List Input) (s : State) :
    runOver (a ++ [idleInput] ++ b) s = runOver (a ++ b) s := by
  obtain ⟨t, ht⟩ := runOver_next a s
  rw [List.append_assoc, runOver_append a _ s t ht, runOver_append a b s t ht]
  exact runOver_cons idleInput b t t (step_hold t)

/-- Settles O36: a step looks at its own input only, so a run splits anywhere, by induction over its first part; and
a step without a byte is a HOLD. -/
theorem chunkingIsInvisible : Obligations.ChunkingIsInvisible :=
  ⟨runOver_cons, runOver_append, runOver_insert_idleInput⟩

end Sys2Proof.Machine
end

section
/-! The invariant of the machine: it holds at reset and every step keeps it (44_stream.md R143). -/

namespace Sys2Proof.Machine

/-- Canonical Idle satisfies the register invariants (R25, R27). -/
theorem State.canonicalIdle.regInv {s : State} (h : s.canonicalIdle) : s.regInv := by
  obtain ⟨hst, hpt, hl, hp⟩ := h
  refine ⟨fun _ => ⟨hl, hp, hpt⟩, fun h => ?_, fun h => ?_⟩ <;> exact absurd (hst.symm.trans h) nofun

/-- In Idle the register invariants are canonical Idle (R25, R27). -/
theorem State.regInv.canonicalIdle {s : State} (h : s.regInv) (hst : s.st = .idle) : s.canonicalIdle := by
  obtain ⟨hl, hp, hpt⟩ := h.1 hst
  exact ⟨hst, hpt, hl, hp⟩

/-- Every entry to Idle is to canonical Idle (D10). -/
theorem canonicalIdle_enterIdle (s : State) : (enterIdle s).canonicalIdle := ⟨rfl, rfl, rfl, rfl⟩

/-- In CollectingPayload the register invariants say only that the type is one that a marker records. -/
theorem regInv_of_collectingPayload {s : State} (hst : s.st = .collectingPayload) (ht : s.ptype ≠ .charPair) :
    s.regInv := by
  refine ⟨fun h => ?_, fun h => ?_, fun _ => ht⟩ <;> exact absurd (hst.symm.trans h) nofun

/-- In CollectingLabel they say that the payload registers are still those of Idle. -/
theorem regInv_of_collectingLabel {s : State} (hst : s.st = .collectingLabel) (hp : s.plen = 0)
    (ht : s.ptype = .singleInt) : s.regInv := by
  refine ⟨fun h => ?_, fun _ => ⟨hp, ht⟩, fun h => ?_⟩ <;> exact absurd (hst.symm.trans h) nofun

/-- Every step keeps the register invariants. -/
theorem StepView.regInv {s t : State} {x : Input} {i : Instr} (v : StepView s x i t) (h : s.regInv) : t.regInv := by
  obtain ⟨hidle, hlabel, hpayload⟩ := h
  cases v with
  | reset | lovf | pend | povf => exact (canonicalIdle_enterIdle _).regInv
  | hold | noise => exact ⟨hidle, hlabel, hpayload⟩
  | sync hst =>
    obtain ⟨-, hp, ht⟩ := hidle hst
    exact regInv_of_collectingLabel rfl hp ht
  | ltypeInt | ltypeInt2 | ltypeChar => exact regInv_of_collectingPayload rfl nofun
  | lappend b hst _ hr =>
    obtain ⟨hp, ht⟩ := hlabel hst
    exact regInv_of_collectingLabel ((appendLabel_st b s hr).trans hst) ((appendLabel_plen b s hr).trans hp)
      ((appendLabel_ptype b s hr).trans ht)
  | pappend b hst _ hr =>
    exact regInv_of_collectingPayload ((appendPayload_st b s hr).trans hst)
      ((appendPayload_ptype b s hr).symm ▸ hpayload hst)

/-- Every step keeps the canonical form of both buffers: only an append writes a cell, below the maximum. -/
theorem StepView.memInv {s t : State} {x : Input} {i : Instr} (v : StepView s x i t) (h : s.memInv) : t.memInv := by
  obtain ⟨hl, hp⟩ := h
  cases v with
  | lappend b _ _ hr =>
    rw [appendLabel_room b s hr]
    exact ⟨Memory.wf_write _ _ hl _ hr b, hp⟩
  | pappend b _ _ hr =>
    rw [appendPayload_room b s hr]
    exact ⟨hl, Memory.wf_write _ _ hp _ hr b⟩
  | reset | hold | sync | noise | ltypeInt | ltypeInt2 | ltypeChar | lovf | pend | povf => exact ⟨hl, hp⟩

/-- Settles O3: the register invariants and the canonical form are kept each on its own, row by row of the table. -/
theorem stepKeepsInvariant : Obligations.StepKeepsInvariant := by
  intro s t hinv h
  obtain ⟨hreg, hmem⟩ := hinv
  have v := stepView_of_step s t h
  exact ⟨v.regInv hreg, v.memInv hmem⟩

/-- Settles O1: the state after reset is canonical Idle with an empty history. -/
theorem resetStateIsCanonicalIdle : Obligations.ResetStateIsCanonicalIdle := ⟨rfl, rfl, rfl, rfl, rfl⟩

/-- Settles O2: reset is canonical Idle, and its buffers list no cell. -/
theorem invariantHoldsAtReset : Obligations.InvariantHoldsAtReset := by
  have hidle : State.reset.canonicalIdle := ⟨rfl, rfl, rfl, rfl⟩
  exact ⟨hidle.regInv, Memory.wf_nil _, Memory.wf_nil _⟩

/-- Every run keeps the invariant and takes exactly its own inputs. -/
theorem runOver_inv (is : List Input) (s t : State) (hinv : s.Inv) (h : runOver is s = .next t) :
    t.Inv ∧ t.inputs = s.inputs := by
  induction is generalizing s with
  | nil => cases h; exact ⟨hinv, rfl⟩
  | cons x is ih =>
    obtain ⟨u, hu⟩ := step_next (present x s)
    rw [runOver_cons x is s u hu] at h
    have v := stepView_of_step_present x s u hu
    obtain ⟨hreg, hmem⟩ := hinv
    obtain ⟨ht, hin⟩ := ih u ⟨v.regInv hreg, v.memInv hmem⟩ h
    exact ⟨ht, hin.trans v.inputs_and_fnResult.1⟩

end Sys2Proof.Machine
end

section
/-! The abstract machine of 10_state.md R26, one lemma per row, and the register machine as its refinement. -/

namespace Sys2Proof.Machine

/-! ## The abstract machine, row by row -/

namespace DecoderState

@[simp] theorem step_reset (d : DecoderState) (rx : Option Byte) : d.step { rst := true, rx := rx } = (.idle, none) :=
  rfl

@[simp] theorem step_hold (d : DecoderState) : d.step idleInput = (d, none) := rfl

@[simp] theorem step_sync : DecoderState.idle.step (byteInput Config.mStart) = (.collectingLabel [], none) := rfl

theorem step_noise (b : Byte) (hb : b ≠ Config.mStart) :
    DecoderState.idle.step (byteInput b) = (.idle, some (.notice b)) := by simp [step, byteInput, hb]

/-- A type marker of any kind ends the label (R101 to R103). -/
@[simp] theorem step_typeMarker (l : Bytes) (t : PType) :
    (collectingLabel l).step (byteInput (typeMarker t)) = (.collectingPayload l (reportedType t) [], none) := by
  cases t <;> rfl

theorem step_lappend (l : Bytes) (b : Byte) (hb : isTypeMarker b = false) (hr : l.length < Config.lmax) :
    (collectingLabel l).step (byteInput b) = (.collectingLabel (l ++ [b]), none) := by
  obtain ⟨h1, h2, h3⟩ := not_isTypeMarker b hb
  simp only [step, byteInput, Bool.false_eq_true, if_false, if_neg h1, if_neg h2, if_neg h3, if_pos hr]

theorem step_lovf (l : Bytes) (b : Byte) (hb : isTypeMarker b = false) (hr : ¬ l.length < Config.lmax) :
    (collectingLabel l).step (byteInput b) = (.idle, some (.overflow .label)) := by
  obtain ⟨h1, h2, h3⟩ := not_isTypeMarker b hb
  simp only [step, byteInput, Bool.false_eq_true, if_false, if_neg h1, if_neg h2, if_neg h3, if_neg hr]

@[simp] theorem step_pend (l : Bytes) (t : PType) (p : Bytes) :
    (collectingPayload l t p).step (byteInput Config.mEnd)
      = (.idle, some (.packet l t p (unmarshalView t p))) := rfl

theorem step_pappend (l : Bytes) (t : PType) (p : Bytes) (b : Byte) (hb : b ≠ Config.mEnd)
    (hr : p.length < Config.pmax) :
    (collectingPayload l t p).step (byteInput b) = (.collectingPayload l t (p ++ [b]), none) := by
  simp only [step, byteInput, Bool.false_eq_true, if_false, if_neg hb, if_pos hr]

theorem step_povf (l : Bytes) (t : PType) (p : Bytes) (b : Byte) (hb : b ≠ Config.mEnd)
    (hr : ¬ p.length < Config.pmax) :
    (collectingPayload l t p).step (byteInput b) = (.idle, some (.overflow .payload)) := by
  simp only [step, byteInput, Bool.false_eq_true, if_false, if_neg hb, if_neg hr]

/-! ### Runs of the abstract machine -/

/-- A run is its first step and the run of the rest (R138). -/
theorem run_cons (d d1 : DecoderState) (e : Option Event) (x : Input) (is : List Input) (h : d.step x = (d1, e)) :
    d.run (x :: is) = ((d1.run is).1, e.toList ++ (d1.run is).2) := by
  rw [run, h]

/-- A run over two sequences is the run over the first and then the one over the second (R139). -/
theorem run_append (d d1 : DecoderState) (es : List Event) (a b : List Input) (h : d.run a = (d1, es)) :
    d.run (a ++ b) = ((d1.run b).1, es ++ (d1.run b).2) := by
  induction a generalizing d es with
  | nil => cases h; rfl
  | cons x a ih =>
    rw [run_cons d _ _ x a rfl, Prod.mk.injEq] at h
    obtain ⟨rfl, rfl⟩ := h
    rw [List.cons_append, run_cons d _ _ x (a ++ b) rfl, ih _ _ rfl, List.append_assoc]

end DecoderState

/-! ## The abstract view of the states -/

theorem absView_of_idle {s : State} (h : s.st = .idle) : absView s = .idle := by rw [absView, h]

theorem absView_of_collectingLabel {s : State} (h : s.st = .collectingLabel) :
    absView s = .collectingLabel (labelOf s) := by rw [absView, h]

theorem absView_of_collectingPayload {s : State} (h : s.st = .collectingPayload) :
    absView s = .collectingPayload (labelOf s) s.ptype (payloadOf s) := by rw [absView, h]

/-- Only in Idle is the abstract view the one of Idle. -/
theorem st_of_absView_eq_idle {s : State} (h : absView s = .idle) : s.st = .idle := by
  cases hst : s.st with
  | idle => rfl
  | collectingLabel => exact nomatch (absView_of_collectingLabel hst).symm.trans h
  | collectingPayload => exact nomatch (absView_of_collectingPayload hst).symm.trans h

/-! ## The refinement -/

/-- An append to the payload leaves the label value. -/
theorem labelOf_appendPayload (b : Byte) (s : State) (hr : s.plen.val < Config.pmax) :
    labelOf (appendPayload b s) = labelOf s := by rw [appendPayload_room b s hr]; rfl

/-- The commuting square of a step: the abstract machine takes the abstract view to the abstract view of the next
state, and emits what the register machine adds to its history. -/
theorem StepView.refines {s t : State} {x : Input} {i : Instr} (v : StepView s x i t) (hmem : s.memInv) :
    ∃ e : Option Event, (absView s).step x = (absView t, e) ∧ t.events = s.events ++ e.toList := by
  obtain ⟨hl, hp⟩ := hmem
  have quiet : s.events = s.events ++ (none : Option Event).toList := (List.append_nil _).symm
  cases v with
  | reset rx => exact ⟨none, DecoderState.step_reset _ rx, quiet⟩
  | hold => exact ⟨none, DecoderState.step_hold _, quiet⟩
  | sync hst => exact ⟨none, absView_of_idle hst ▸ DecoderState.step_sync, quiet⟩
  | noise b hst hb =>
    refine ⟨some (.notice b), ?_, rfl⟩
    rw [absView_of_idle hst, DecoderState.step_noise b hb, absView_of_idle (s := emit (.notice b) s) hst]
  | ltypeInt hst =>
    exact ⟨none, by rw [absView_of_collectingLabel hst]; exact DecoderState.step_typeMarker _ .singleInt, quiet⟩
  | ltypeInt2 hst =>
    exact ⟨none, by rw [absView_of_collectingLabel hst]; exact DecoderState.step_typeMarker _ .intPair, quiet⟩
  | ltypeChar hst =>
    exact ⟨none, by rw [absView_of_collectingLabel hst]; exact DecoderState.step_typeMarker _ .char, quiet⟩
  | lappend b hst hb hr =>
    have hst' : (appendLabel b s).st = .collectingLabel := (appendLabel_st b s hr).trans hst
    refine ⟨none, ?_, by rw [appendLabel_events b s hr]; exact quiet⟩
    rw [absView_of_collectingLabel hst, DecoderState.step_lappend _ b hb (by rwa [labelOf_length]),
      absView_of_collectingLabel hst', labelOf_appendLabel b s hl hr]
  | lovf b hst hb hr =>
    refine ⟨some (.overflow .label), ?_, rfl⟩
    rw [absView_of_collectingLabel hst, DecoderState.step_lovf _ b hb (by rwa [labelOf_length])]
    rfl
  | pend hst => exact ⟨some _, absView_of_collectingPayload hst ▸ DecoderState.step_pend _ _ _, rfl⟩
  | pappend b hst hb hr =>
    have hst' : (appendPayload b s).st = .collectingPayload := (appendPayload_st b s hr).trans hst
    refine ⟨none, ?_, by rw [appendPayload_events b s hr]; exact quiet⟩
    rw [absView_of_collectingPayload hst, DecoderState.step_pappend _ _ _ b hb (by rwa [payloadOf_length]),
      absView_of_collectingPayload hst', payloadOf_appendPayload b s hp hr, labelOf_appendPayload b s hr,
      appendPayload_ptype b s hr]
  | povf b hst hb hr =>
    refine ⟨some (.overflow .payload), ?_, rfl⟩
    rw [absView_of_collectingPayload hst, DecoderState.step_povf _ _ _ b hb (by rwa [payloadOf_length])]
    rfl

/-- Settles O34: the commuting square of one step, put together over the inputs; the canonical form of the buffers,
which the square needs, is kept along. -/
theorem registerMachineRefinesAbstractMachine : Obligations.RegisterMachineRefinesAbstractMachine := by
  intro is
  induction is with
  | nil => exact fun s _ => ⟨s, rfl, rfl, (List.append_nil _).symm⟩
  | cons x is ih =>
    intro s hmem
    obtain ⟨u, hu⟩ := step_next (present x s)
    have v := stepView_of_step_present x s u hu
    obtain ⟨e, hstep, hevents⟩ := v.refines hmem
    obtain ⟨t, ht, hview, hevents'⟩ := ih u (v.memInv hmem)
    refine ⟨t, (runOver_cons x is s u hu).trans ht, ?_, ?_⟩
    · rw [DecoderState.run_cons _ _ _ x is hstep, hview]
    · rw [DecoderState.run_cons _ _ _ x is hstep, hevents', hevents, List.append_assoc]

/-! ## Cells at or above the counters -/

/-- What can be seen of a state is all that an event adds to, an entry to Idle clears or a marker records. -/
theorem sameVisible.emit {s t : State} (h : sameVisible s t) (e : Event) : sameVisible (emit e s) (emit e t) := by
  obtain ⟨hst, hpt, hll, hpl, hlab, hpay, hin, hev⟩ := h
  exact ⟨hst, hpt, hll, hpl, hlab, hpay, hin, congrArg (· ++ [e]) hev⟩

theorem sameVisible.enterIdle {s t : State} (h : sameVisible s t) : sameVisible (enterIdle s) (enterIdle t) := by
  obtain ⟨-, -, -, -, -, -, hin, hev⟩ := h
  exact ⟨rfl, rfl, rfl, rfl, rfl, rfl, hin, hev⟩

theorem sameVisible.endLabel {s t : State} (h : sameVisible s t) (ty : PType) :
    sameVisible (endLabel ty s) (endLabel ty t) := by
  obtain ⟨-, -, hll, -, hlab, -, hin, hev⟩ := h
  exact ⟨rfl, rfl, hll, rfl, hlab, rfl, hin, hev⟩

/-- The cell that an append to the label writes comes into sight with the byte written. -/
theorem sameVisible.appendLabel {s t : State} (h : sameVisible s t) (hs : s.memInv) (ht : t.memInv) (b : Byte) :
    sameVisible (appendLabel b s) (appendLabel b t) := by
  by_cases hr : s.llen.val < Config.lmax
  · obtain ⟨hst, hpt, hll, hpl, hlab, hpay, hin, hev⟩ := h
    have hr' : t.llen.val < Config.lmax := hll ▸ hr
    have hlab' : labelOf (Machine.appendLabel b s) = labelOf (Machine.appendLabel b t) := by
      rw [labelOf_appendLabel b s hs.1 hr, labelOf_appendLabel b t ht.1 hr', hlab]
    rw [appendLabel_room b s hr, appendLabel_room b t hr'] at hlab' ⊢
    exact ⟨hst, hpt, Fin.ext (congrArg (·.val + 1) hll), hpl, hlab', hpay, hin, hev⟩
  · have hr' : ¬ t.llen.val < Config.lmax := h.2.2.1 ▸ hr
    rw [appendLabel_full b s hr, appendLabel_full b t hr']
    exact (h.emit _).enterIdle

/-- The cell that an append to the payload writes comes into sight with the byte written. -/
theorem sameVisible.appendPayload {s t : State} (h : sameVisible s t) (hs : s.memInv) (ht : t.memInv) (b : Byte) :
    sameVisible (appendPayload b s) (appendPayload b t) := by
  by_cases hr : s.plen.val < Config.pmax
  · obtain ⟨hst, hpt, hll, hpl, hlab, hpay, hin, hev⟩ := h
    have hr' : t.plen.val < Config.pmax := hpl ▸ hr
    have hpay' : payloadOf (Machine.appendPayload b s) = payloadOf (Machine.appendPayload b t) := by
      rw [payloadOf_appendPayload b s hs.2 hr, payloadOf_appendPayload b t ht.2 hr', hpay]
    rw [appendPayload_room b s hr, appendPayload_room b t hr'] at hpay' ⊢
    exact ⟨hst, hpt, hll, Fin.ext (congrArg (·.val + 1) hpl), hlab, hpay', hin, hev⟩
  · have hr' : ¬ t.plen.val < Config.pmax := h.2.2.2.1 ▸ hr
    rw [appendPayload_full b s hr, appendPayload_full b t hr']
    exact (h.emit _).enterIdle

/-- What an operation does to what can be seen rests on what can be seen alone (R35). -/
theorem sameVisible.exec {s t s' t' : State} (h : sameVisible s t) (hs : s.memInv) (ht : t.memInv) (i : Instr)
    (hs' : exec i s = .next s') (ht' : exec i t = .next t') : sameVisible s' t' := by
  have same := h
  obtain ⟨hst, hpt, hll, hpl, hlab, hpay, hin, hev⟩ := h
  cases i with
  | reset => cases hs'; cases ht'; exact same.enterIdle
  | hold => cases hs'; cases ht'; exact same
  | sync => cases hs'; cases ht'; exact ⟨rfl, hpt, rfl, hpl, rfl, hpay, hin, hev⟩
  | noise b => cases hs'; cases ht'; exact same.emit _
  | ltypeInt => cases hs'; cases ht'; exact same.endLabel _
  | ltypeInt2 => cases hs'; cases ht'; exact same.endLabel _
  | ltypeChar => cases hs'; cases ht'; exact same.endLabel _
  | lappend b => cases hs'; cases ht'; exact same.appendLabel hs ht b
  | lovf b => cases hs'; cases ht'; exact (same.emit _).enterIdle
  | pend =>
    rw [exec_pend, deliver_eq] at hs' ht'
    cases hs'; cases ht'
    rw [hpt, hlab, hpay]
    exact (same.emit _).enterIdle
  | pappend b => cases hs'; cases ht'; exact same.appendPayload hs ht b
  | povf b => cases hs'; cases ht'; exact (same.emit _).enterIdle
  | decode32 | unmarshal | encode32 => cases hs'; cases ht'; exact ⟨hst, hpt, hll, hpl, hlab, hpay, hin, hev⟩

/-- The selection sees the state register and the counters, so it is the same for both. -/
theorem sameVisible.selected {s t : State} (h : sameVisible s t) (x : Input) :
    selected (present x s) = selected (present x t) := by
  obtain ⟨hst, -, hll, hpl, -⟩ := h
  rw [selected_present, selected_present, fieldFull, fieldFull, labelRoom, labelRoom, payloadRoom, payloadRoom, hst,
    hll, hpl]

/-- Settles O35: the two runs select the same operations, and each operation keeps what can be seen the same, by
induction over the inputs. -/
theorem hiddenCellsAreUnobservable : Obligations.HiddenCellsAreUnobservable := by
  intro is
  induction is with
  | nil => exact fun s t _ _ h => ⟨s, t, rfl, rfl, h⟩
  | cons x is ih =>
    intro s t hs ht h
    obtain ⟨u, hu⟩ := step_next (present x s)
    obtain ⟨v, hv⟩ := step_next (present x t)
    have hu' : exec (selected (present x s)) s = .next u := hu
    have hv' : exec (selected (present x s)) t = .next v := h.selected x ▸ hv
    rw [runOver_cons x is s u hu, runOver_cons x is t v hv]
    exact ih u v ((stepView_of_step_present x s u hu).memInv hs) ((stepView_of_step_present x t v hv).memInv ht)
      (h.exec hs ht _ hu' hv')

end Sys2Proof.Machine
end

section
/-! Packets on the wire: what the abstract machine makes of byte streams, carried to the register machine by the
refinement (44_stream.md R141, R142; 70_reset_and_hazards.md R191, R195, R199, R200). -/

namespace Sys2Proof.Machine

/-! ## Byte streams through the abstract machine -/

theorem bytesIn_append (a b : Bytes) : bytesIn (a ++ b) = bytesIn a ++ bytesIn b := List.map_append

/-- Decodable, clause by clause (R79). -/
theorem decodable_iff {l p : Bytes} :
    decodable l p = true ↔ l.length ≤ Config.lmax ∧ (∀ b ∈ l, isTypeMarker b = false)
      ∧ p.length ≤ Config.pmax ∧ ∀ b ∈ p, b ≠ Config.mEnd := by
  simp only [decodable, Bool.and_eq_true, decide_eq_true_eq, List.all_eq_true, Bool.not_eq_true', bne_iff_ne, and_assoc]

namespace DecoderState

/-- The abstract run over a byte stream with no gap (`RunBytes`, R138). -/
def runBytes (d : DecoderState) (bs : Bytes) : DecoderState × List Event := d.run (bytesIn bs)

@[simp] theorem runBytes_nil (d : DecoderState) : d.runBytes [] = (d, []) := rfl

/-- A byte, then the rest. -/
theorem runBytes_cons {d d1 : DecoderState} {e : Option Event} {b : Byte} (h : d.step (byteInput b) = (d1, e))
    (bs : Bytes) : d.runBytes (b :: bs) = ((d1.runBytes bs).1, e.toList ++ (d1.runBytes bs).2) :=
  run_cons d d1 e (byteInput b) (bytesIn bs) h

/-- One byte. -/
theorem runBytes_singleton {d d1 : DecoderState} {e : Option Event} {b : Byte} (h : d.step (byteInput b) = (d1, e)) :
    d.runBytes [b] = (d1, e.toList) := by rw [runBytes_cons h, runBytes_nil, List.append_nil]

/-- Two streams, one after the other. -/
theorem runBytes_append {d d1 d2 : DecoderState} {es es' : List Event} {a b : Bytes} (ha : d.runBytes a = (d1, es))
    (hb : d1.runBytes b = (d2, es')) : d.runBytes (a ++ b) = (d2, es ++ es') := by
  have hb' : d1.run (bytesIn b) = (d2, es') := hb
  rw [runBytes, bytesIn_append, run_append d d1 es _ _ ha, hb']

/-- In Idle every byte but START gets its notice (R92, R164). -/
theorem runBytes_noise (bs : Bytes) (h : ∀ b ∈ bs, b ≠ Config.mStart) :
    DecoderState.idle.runBytes bs = (.idle, bs.map .notice) := by
  induction bs with
  | nil => rfl
  | cons b bs ih =>
    obtain ⟨hb, hbs⟩ := List.forall_mem_cons.1 h
    rw [runBytes_cons (step_noise b hb), ih hbs]
    rfl

/-- START begins a packet (R91). -/
theorem runBytes_start : DecoderState.idle.runBytes [Config.mStart] = (.collectingLabel [], []) := rfl

/-- Label bytes that fit are collected (R104). -/
theorem runBytes_label (l l' : Bytes) (h : ∀ b ∈ l', isTypeMarker b = false)
    (hl : l.length + l'.length ≤ Config.lmax) :
    (collectingLabel l).runBytes l' = (.collectingLabel (l ++ l'), []) := by
  induction l' generalizing l with
  | nil => rw [List.append_nil, runBytes_nil]
  | cons b l' ih =>
    obtain ⟨hb, hl'⟩ := List.forall_mem_cons.1 h
    rw [List.length_cons] at hl
    have hfits : (l ++ [b]).length + l'.length ≤ Config.lmax := by
      rw [List.length_append, List.length_singleton]
      omega
    rw [runBytes_cons (step_lappend l b hb (by omega)), ih (l ++ [b]) hl' hfits, List.append_assoc]
    rfl

/-- The type marker ends the label (R101 to R103). -/
theorem runBytes_typeMarker (l : Bytes) (t : PType) :
    (collectingLabel l).runBytes [typeMarker t] = (.collectingPayload l (reportedType t) [], []) :=
  runBytes_singleton (step_typeMarker l t)

/-- Payload bytes that fit are collected (R112). -/
theorem runBytes_payload (l : Bytes) (t : PType) (p p' : Bytes) (h : ∀ b ∈ p', b ≠ Config.mEnd)
    (hp : p.length + p'.length ≤ Config.pmax) :
    (collectingPayload l t p).runBytes p' = (.collectingPayload l t (p ++ p'), []) := by
  induction p' generalizing p with
  | nil => rw [List.append_nil, runBytes_nil]
  | cons b p' ih =>
    obtain ⟨hb, hp'⟩ := List.forall_mem_cons.1 h
    rw [List.length_cons] at hp
    have hfits : (p ++ [b]).length + p'.length ≤ Config.pmax := by
      rw [List.length_append, List.length_singleton]
      omega
    rw [runBytes_cons (step_pappend l t p b hb (by omega)), ih (p ++ [b]) hp' hfits, List.append_assoc]
    rfl

/-- END delivers the packet (R111). -/
theorem runBytes_end (l : Bytes) (t : PType) (p : Bytes) :
    (collectingPayload l t p).runBytes [Config.mEnd] = (.idle, [.packet l t p (unmarshalView t p)]) := rfl

/-- From Idle, START and a label that fits. -/
theorem runBytes_start_label (l : Bytes) (h : ∀ b ∈ l, isTypeMarker b = false) (hl : l.length ≤ Config.lmax) :
    DecoderState.idle.runBytes ([Config.mStart] ++ l) = (.collectingLabel l, []) :=
  runBytes_append runBytes_start (runBytes_label [] l h (by simpa using hl))

/-- From Idle, START, a label that fits and a type marker. -/
theorem runBytes_header (l : Bytes) (t : PType) (h : ∀ b ∈ l, isTypeMarker b = false)
    (hl : l.length ≤ Config.lmax) :
    DecoderState.idle.runBytes ([Config.mStart] ++ l ++ [typeMarker t])
      = (.collectingPayload l (reportedType t) [], []) :=
  runBytes_append (runBytes_start_label l h hl) (runBytes_typeMarker l t)

/-- From Idle, a whole packet whose label and payload fit and hold none of the markers looked for. -/
theorem runBytes_encodePacket (l : Bytes) (t : PType) (p : Bytes) (h : decodable l p = true) :
    DecoderState.idle.runBytes (encodePacket l t p)
      = (.idle, [.packet l (reportedType t) p (unmarshalView (reportedType t) p)]) := by
  obtain ⟨hl, hlabel, hp, hpayload⟩ := decodable_iff.1 h
  have hdata := runBytes_payload l (reportedType t) [] p hpayload (by simpa using hp)
  exact runBytes_append (runBytes_append (runBytes_header l t hlabel hl) hdata) (runBytes_end _ _ _)

/-- From Idle, packets one after the other (R141). -/
theorem runBytes_flatMap_encodePacket (packets : List (Bytes × PType × Bytes))
    (h : ∀ q ∈ packets, decodable q.1 q.2.2 = true) :
    DecoderState.idle.runBytes (packets.flatMap (fun q => encodePacket q.1 q.2.1 q.2.2))
      = (.idle, packets.map (fun q =>
          .packet q.1 (reportedType q.2.1) q.2.2 (unmarshalView (reportedType q.2.1) q.2.2))) := by
  induction packets with
  | nil => rfl
  | cons q packets ih =>
    obtain ⟨hq, hpackets⟩ := List.forall_mem_cons.1 h
    exact runBytes_append (runBytes_encodePacket q.1 q.2.1 q.2.2 hq) (ih hpackets)

/-- A list of `n + 1` members is its first `n` and its last. -/
theorem exists_eq_append_singleton {α : Type} {n : Nat} (l : List α) (h : l.length = n + 1) :
    ∃ l' b, l = l' ++ [b] ∧ l'.length = n := by
  have hne : l ≠ [] := List.ne_nil_of_length_eq_add_one h
  refine ⟨l.dropLast, l.getLast hne, (List.dropLast_append_getLast hne).symm, ?_⟩
  rw [List.length_dropLast, h, Nat.add_sub_cancel]

/-- From Idle, START and a label of capacity bytes, which overflows at its last (R105, R200). -/
theorem runBytes_label_overflow (l : Bytes) (hl : l.length = Config.capLabel) (h : ∀ b ∈ l, isTypeMarker b = false) :
    DecoderState.idle.runBytes ([Config.mStart] ++ l) = (.idle, [.overflow .label]) := by
  obtain ⟨l, b, rfl, hlen⟩ := exists_eq_append_singleton l hl
  obtain ⟨hlabel, hb⟩ := List.forall_mem_append.1 h
  have hfull : ¬ l.length < Config.lmax := hlen.not_lt
  rw [← List.append_assoc]
  exact runBytes_append (runBytes_start_label l hlabel hlen.le)
    (runBytes_singleton (step_lovf l b (hb b (List.mem_singleton_self b)) hfull))

/-- From Idle, a header and a payload of capacity bytes, which overflows at its last (R113, R200). -/
theorem runBytes_payload_overflow (l p : Bytes) (t : PType) (hl : l.length ≤ Config.lmax)
    (hlabel : ∀ b ∈ l, isTypeMarker b = false) (hp : p.length = Config.capPayload) (h : ∀ b ∈ p, b ≠ Config.mEnd) :
    DecoderState.idle.runBytes ([Config.mStart] ++ l ++ [typeMarker t] ++ p) = (.idle, [.overflow .payload]) := by
  obtain ⟨p, b, rfl, hlen⟩ := exists_eq_append_singleton p hp
  obtain ⟨hpayload, hb⟩ := List.forall_mem_append.1 h
  have hfull : ¬ p.length < Config.pmax := hlen.not_lt
  have hdata := runBytes_payload l (reportedType t) [] p hpayload (by simpa using hlen.le)
  rw [← List.append_assoc]
  exact runBytes_append (runBytes_append (runBytes_header l t hlabel hl) hdata)
    (runBytes_singleton (step_povf l _ p b (hb b (List.mem_singleton_self b)) hfull))

end DecoderState

/-! ## Carried to the register machine -/

/-- A byte stream that takes the abstract machine from Idle to Idle takes the register machine from canonical Idle to
canonical Idle, with the same events and with nothing behind the stream read. -/
theorem runOver_bytesIn_of_runBytes (s : State) (bs : Bytes) (es : List Event) (hidle : s.canonicalIdle)
    (hmem : s.memInv) (h : DecoderState.idle.runBytes bs = (.idle, es)) :
    ∃ t : State, runOver (bytesIn bs) s = .next t
      ∧ t.canonicalIdle ∧ t.memInv ∧ t.inputs = s.inputs ∧ t.events = s.events ++ es := by
  obtain ⟨t, ht, hview, hevents⟩ := registerMachineRefinesAbstractMachine (bytesIn bs) s hmem
  obtain ⟨⟨hreg, hmem'⟩, hin⟩ := runOver_inv (bytesIn bs) s t ⟨hidle.regInv, hmem⟩ ht
  have hrun : (absView s).run (bytesIn bs) = (.idle, es) := absView_of_idle hidle.1 ▸ h
  rw [hrun] at hview hevents
  exact ⟨t, ht, hreg.canonicalIdle (st_of_absView_eq_idle hview), hmem', hin, hevents⟩

/-- Settles O38: the packet's bytes take the abstract machine from Idle to Idle with that packet as the one event. -/
theorem decodablePacketRoundTrips : Obligations.DecodablePacketRoundTrips :=
  fun s l ty p hidle hmem hdec =>
    runOver_bytesIn_of_runBytes s _ _ hidle hmem (DecoderState.runBytes_encodePacket l ty p hdec)

/-- Settles O39: each packet leaves the abstract machine in Idle, where the next begins. -/
theorem packetSequenceRoundTrips : Obligations.PacketSequenceRoundTrips :=
  fun packets s hidle hmem hdec =>
    runOver_bytesIn_of_runBytes s _ _ hidle hmem (DecoderState.runBytes_flatMap_encodePacket packets hdec)

/-- Settles O44: the first 99 bytes fill the label, the last does not fit. -/
theorem labelOfCapacityBytesOverflows : Obligations.LabelOfCapacityBytesOverflows := by
  intro s l hidle hmem hl hlabel
  obtain ⟨t, ht, hidle', hmem', -, hevents⟩ :=
    runOver_bytesIn_of_runBytes s _ _ hidle hmem (DecoderState.runBytes_label_overflow l hl hlabel)
  exact ⟨t, ht, hidle', hmem', hevents⟩

/-- Settles O45: the first 99 bytes fill the payload, the last does not fit. -/
theorem payloadOfCapacityBytesOverflows : Obligations.PayloadOfCapacityBytesOverflows := by
  intro s l p ty hidle hmem hl hlabel hp hpayload
  obtain ⟨t, ht, hidle', hmem', -, hevents⟩ := runOver_bytesIn_of_runBytes s _ _ hidle hmem
    (DecoderState.runBytes_payload_overflow l p ty hl hlabel hp hpayload)
  exact ⟨t, ht, hidle', hmem', hevents⟩

/-- Settles O40: the overflow aborts the packet, so the tail is received in Idle, where it is noise. -/
theorem oversizedLabelEndsInNoise : Obligations.OversizedLabelEndsInNoise := by
  intro s l tail hidle hmem hl hlabel htail
  obtain ⟨t, ht, hidle', -, -, hevents⟩ := runOver_bytesIn_of_runBytes s _ _ hidle hmem
    (DecoderState.runBytes_append (DecoderState.runBytes_label_overflow l hl hlabel)
      (DecoderState.runBytes_noise tail htail))
  exact ⟨t, ht, hidle', hevents⟩

/-- Settles O42: noise leaves the abstract machine in Idle, where the packet begins. -/
theorem noiseBeforePacketDoesNotDisturbIt : Obligations.NoiseBeforePacketDoesNotDisturbIt := by
  intro s noise l ty p hidle hmem hnoise hdec
  obtain ⟨t, ht, hidle', -, -, hevents⟩ := runOver_bytesIn_of_runBytes s _ _ hidle hmem
    (DecoderState.runBytes_append (DecoderState.runBytes_noise noise hnoise)
      (DecoderState.runBytes_encodePacket l ty p hdec))
  exact ⟨t, ht, hidle', by rw [hevents, List.append_assoc]⟩

end Sys2Proof.Machine
end

section
/-! The codec family: the bytes of a 32-bit integer (43_unmarshal.md R120 to R126) and the integer view of a payload
(R122, 60_exceptions.md R154). -/

namespace Sys2Proof.Machine

/-! ## The bytes of an integer -/

/-- A 32-bit integer as a number, from its bytes (R120). -/
theorem toNat_eq_bytes (v : U32) :
    v.toNat = (v.extractLsb' 24 8).toNat * 16777216 + (v.extractLsb' 16 8).toNat * 65536
      + (v.extractLsb' 8 8).toNat * 256 + (v.extractLsb' 0 8).toNat := by
  have hv : v.toNat < 2 ^ 32 := v.isLt
  simp only [BitVec.extractLsb'_toNat, Nat.shiftRight_eq_div_pow]
  omega

/-- Integers with the same four bytes are the same. -/
theorem eq_of_encode32Bytes_eq {v w : U32} (h : encode32Bytes v = encode32Bytes w) : v = w := by
  simp only [encode32Bytes, List.cons.injEq, and_true] at h
  obtain ⟨h0, h1, h2, h3⟩ := h
  refine BitVec.eq_of_toNat_eq ?_
  rw [toNat_eq_bytes v, toNat_eq_bytes w, h0, h1, h2, h3]

/-- Encoding a decoded integer gives the bytes back (R126). -/
@[simp] theorem encode32Bytes_decode32Val (b0 b1 b2 b3 : Byte) :
    encode32Bytes (decode32Val b0 b1 b2 b3) = [b0, b1, b2, b3] := by
  obtain ⟨h0, h1, h2, h3⟩ := decode32Val_bytes b0 b1 b2 b3
  rw [encode32Bytes, h0, h1, h2, h3]

/-- Decoding the bytes of an integer gives it back (R126). -/
theorem decode32Val_of_encode32Bytes (v : U32) (b0 b1 b2 b3 : Byte) (h : encode32Bytes v = [b0, b1, b2, b3]) :
    decode32Val b0 b1 b2 b3 = v := by
  refine eq_of_encode32Bytes_eq ?_
  rw [encode32Bytes_decode32Val, h]

/-- Settles O25: encoding tells integers apart, so that it undoes decoding makes decoding undo it as well. -/
theorem codecInverseLaws : Obligations.CodecInverseLaws :=
  ⟨decode32Val_of_encode32Bytes, encode32Bytes_decode32Val⟩

/-- Settles O22: the four bytes of the result are those received, in order, and a number is read off its bytes. -/
theorem decode32IsBigEndian : Obligations.Decode32IsBigEndian := by
  intro s b0 b1 b2 b3
  obtain ⟨h0, h1, h2, h3⟩ := decode32Val_bytes b0 b1 b2 b3
  refine ⟨decode32Val b0 b1 b2 b3, exec_decode32 b0 b1 b2 b3 s, ?_, h0, h1, h2, h3⟩
  rw [toNat_eq_bytes, h0, h1, h2, h3]

/-- Settles O24: the result is the operation's list of extracted bytes, and only the result field is written. -/
theorem encode32IsMostSignificantFirst : Obligations.Encode32IsMostSignificantFirst :=
  fun s v => exec_encode32 v s

/-! ## The integer view -/

/-- The bytes of an integer read back as a SingleInt (R122, R126). -/
theorem unmarshalView_singleInt_encode32Bytes (v : U32) : unmarshalView .singleInt (encode32Bytes v) = .one v :=
  congrArg IntView.one (decode32Val_of_encode32Bytes v _ _ _ _ rfl)

/-- The bytes of two integers read back as an IntPair (R122, R126). -/
theorem unmarshalView_intPair_encode32Bytes (v1 v2 : U32) :
    unmarshalView .intPair (encode32Bytes v1 ++ encode32Bytes v2) = .two v1 v2 :=
  congrArg₂ IntView.two (decode32Val_of_encode32Bytes v1 _ _ _ _ rfl) (decode32Val_of_encode32Bytes v2 _ _ _ _ rfl)

/-- Four bytes of a SingleInt are an integer and no mismatch. -/
theorem unmarshalView_singleInt_eq_lenMismatch_iff (p : Bytes) :
    unmarshalView .singleInt p = .lenMismatch ↔ p.length ≠ 4 := by
  refine ⟨fun h hlen => ?_, unmarshalView_singleInt_of_length p⟩
  match p, hlen with
  | [_, _, _, _], _ => exact nomatch h

/-- Eight bytes of an IntPair are two integers and no mismatch. -/
theorem unmarshalView_intPair_eq_lenMismatch_iff (p : Bytes) :
    unmarshalView .intPair p = .lenMismatch ↔ p.length ≠ 8 := by
  refine ⟨fun h hlen => ?_, unmarshalView_intPair_of_length p⟩
  match p, hlen with
  | [_, _, _, _, _, _, _, _], _ => exact nomatch h

/-- Settles O47: each integer type has its one length, and a character type has no integers to miss. -/
theorem lengthMismatchExactlyOnWrongLength : Obligations.LengthMismatchExactlyOnWrongLength := by
  intro t p
  cases t with
  | singleInt => simp [unmarshalView_singleInt_eq_lenMismatch_iff]
  | intPair => simp [unmarshalView_intPair_eq_lenMismatch_iff]
  | char | charPair => simp [unmarshalView]

/-- Settles O23: the result is the integer view, which is read off for the lengths that the types imply and is
LenMismatch for the others. -/
theorem unmarshalReadsIntegers : Obligations.UnmarshalReadsIntegers := by
  intro s p
  refine ⟨fun _ _ _ _ => rfl, fun hlen => ?one, fun _ _ _ _ _ _ _ _ => rfl, fun hlen => ?two, rfl, rfl⟩
  case one => rw [exec_unmarshal, unmarshalView_singleInt_of_length p hlen]; rfl
  case two => rw [exec_unmarshal, unmarshalView_intPair_of_length p hlen]; rfl

end Sys2Proof.Machine
end

section
/-! Byte streams with integers, with a notice and with noise alone (44_stream.md R141; 70_reset_and_hazards.md R191,
R195; 60_exceptions.md R164). -/

namespace Sys2Proof.Machine

/-- Settles O41: a decodable packet comes back whole, and its bytes are read back as the integers sent. -/
theorem encodedIntegersComeBack : Obligations.EncodedIntegersComeBack := by
  refine ⟨fun s l v hidle hmem hdec => ?one, fun s l v1 v2 hidle hmem hdec => ?two⟩
  case one =>
    obtain ⟨t, ht, hidle', -, -, hevents⟩ := decodablePacketRoundTrips s l .singleInt _ hidle hmem hdec
    exact ⟨t, ht, hidle', unmarshalView_singleInt_encode32Bytes v ▸ hevents⟩
  case two =>
    obtain ⟨t, ht, hidle', -, -, hevents⟩ := decodablePacketRoundTrips s l .intPair _ hidle hmem hdec
    exact ⟨t, ht, hidle', unmarshalView_intPair_encode32Bytes v1 v2 ▸ hevents⟩

/-- The bytes before the first END are fewer than a list that holds END has. -/
theorem length_takeWhile_ne_end (p : Bytes) (h : Config.mEnd ∈ p) :
    (p.takeWhile (fun b => b != Config.mEnd)).length < p.length := by
  have hprefix := List.takeWhile_prefix (l := p) (fun b => b != Config.mEnd)
  refine lt_of_le_of_ne hprefix.length_le fun hlen => ?_
  rw [← hprefix.eq_of_length hlen] at h
  exact absurd (List.mem_takeWhile_imp h) (by decide)

/-- The bytes before the first END, under a label that fits, make a decodable packet when they fit. -/
theorem decodable_takeWhile_ne_end (l p : Bytes) (hl : l.length ≤ Config.lmax)
    (hlabel : ∀ b ∈ l, isTypeMarker b = false) (hp : p.length ≤ Config.pmax) :
    decodable l (p.takeWhile (fun b => b != Config.mEnd)) = true := by
  refine decodable_iff.2 ⟨hl, hlabel, (List.takeWhile_prefix _).length_le.trans hp, fun b hb => ?_⟩
  exact bne_iff_ne.1 (List.mem_takeWhile_imp (p := fun b => b != Config.mEnd) hb)

/-- Settles O43: the bytes before the first END are a payload of fewer than four bytes, delivered without an
integer. -/
theorem integerHoldingEndIsCutShort : Obligations.IntegerHoldingEndIsCutShort := by
  intro s l v hidle hmem hl hlabel hend
  have hlen : ((encode32Bytes v).takeWhile (fun b => b != Config.mEnd)).length < 4 :=
    length_takeWhile_ne_end (encode32Bytes v) hend
  have hdec := decodable_takeWhile_ne_end l (encode32Bytes v) hl hlabel (show 4 ≤ Config.pmax by decide)
  obtain ⟨t, ht, hidle', -, -, hevents⟩ := decodablePacketRoundTrips s l .singleInt _ hidle hmem hdec
  exact ⟨t, ht, hidle', unmarshalView_singleInt_of_length _ hlen.ne ▸ hevents⟩

/-- A notice is a decodable Char packet unless its byte is END (R195). -/
theorem decodable_notice (b : Byte) (hb : b ≠ Config.mEnd) : decodable Config.errLabel [b] = true :=
  decodable_iff.2 ⟨by decide, by decide, show 1 ≤ Config.pmax by decide, fun c hc => List.mem_singleton.1 hc ▸ hb⟩

/-- The notice for END is an empty packet and one END more, which is noise (R195). -/
theorem runBytes_noticeWire_end :
    DecoderState.idle.runBytes (noticeWire Config.mEnd)
      = (.idle, [.packet Config.errLabel .char [] .noInts, .notice Config.mEnd]) :=
  DecoderState.runBytes_append (DecoderState.runBytes_encodePacket Config.errLabel .char [] (by decide))
    (DecoderState.runBytes_noise [Config.mEnd] (by decide))

/-- Settles O46: the notice is the encoded Char packet of its byte; for END the packet ends one byte early. -/
theorem noticeReceivedByPeer : Obligations.NoticeReceivedByPeer := by
  intro s b hidle hmem
  by_cases hb : b = Config.mEnd
  · subst hb
    obtain ⟨t, ht, hidle', -, -, hevents⟩ := runOver_bytesIn_of_runBytes s _ _ hidle hmem runBytes_noticeWire_end
    exact ⟨t, ht, hidle', by rw [hevents, if_pos rfl]⟩
  · obtain ⟨t, ht, hidle', -, -, hevents⟩ :=
      decodablePacketRoundTrips s Config.errLabel .char [b] hidle hmem (decodable_notice b hb)
    exact ⟨t, ht, hidle', by rw [hevents, if_neg hb]; rfl⟩

/-- Settles O37: each byte in turn is a NOISE, which leaves the block in Idle with its notice added. -/
theorem eachNoiseByteGetsItsNotice : Obligations.EachNoiseByteGetsItsNotice := by
  intro bs
  induction bs with
  | nil =>
    intro s _ _
    rw [List.map_nil, List.append_nil]
    rfl
  | cons b bs ih =>
    intro s hst hbs
    obtain ⟨hb, hbs⟩ := List.forall_mem_cons.1 hbs
    refine (runOver_cons (byteInput b) (bytesIn bs) s _ (step_noise b s hst hb)).trans ?_
    rw [ih (emit (.notice b) s) hst hbs, emit_events, List.append_assoc]
    rfl

end Sys2Proof.Machine
end

section
/-! The encoding family: decode and encode agree (30_encoding.md R62 to R64), the printed opcode table, the byte classes
(R61, R81), the wire lengths (R69, R72), and placing a word (log entry 12). -/

namespace Sys2Proof.Machine

/-! ## Words that decode -/

/-- The word of a well-formed operation decodes to it. -/
theorem decodeWord_of_encode (i : Instr) (w : SelWord) (hwf : i.wellFormed = true) (hw : encode i = some w) :
    decodeWord w = .ok i := by
  have h : Laws.RoundTrip.Statement i := by
    cases i with
    | reset => exact Laws.RoundTrip.reset
    | hold => exact Laws.RoundTrip.hold
    | sync => exact Laws.RoundTrip.sync
    | noise b => exact Laws.RoundTrip.noise b
    | ltypeInt => exact Laws.RoundTrip.ltypeInt
    | ltypeInt2 => exact Laws.RoundTrip.ltypeInt2
    | ltypeChar => exact Laws.RoundTrip.ltypeChar
    | lappend b => exact Laws.RoundTrip.lappend b
    | lovf b => exact Laws.RoundTrip.lovf b
    | pend => exact Laws.RoundTrip.pend
    | pappend b => exact Laws.RoundTrip.pappend b
    | povf b => exact Laws.RoundTrip.povf b
    | decode32 b0 b1 b2 b3 => exact Laws.RoundTrip.decode32 b0 b1 b2 b3
    | unmarshal t p => exact Laws.RoundTrip.unmarshal t p
    | encode32 v => exact Laws.RoundTrip.encode32 v
  exact h hwf w hw

/-- Exactly the pure functions of format F have no word (R63). -/
theorem encode_eq_none_iff (i : Instr) :
    encode i = none ↔
      (∃ b0 b1 b2 b3, i = .decode32 b0 b1 b2 b3) ∨ (∃ t p, i = .unmarshal t p) ∨ ∃ v, i = .encode32 v := by
  constructor
  · intro h
    cases i with
    | decode32 b0 b1 b2 b3 => exact .inl ⟨b0, b1, b2, b3, rfl⟩
    | unmarshal t p => exact .inr (.inl ⟨t, p, rfl⟩)
    | encode32 v => exact .inr (.inr ⟨v, rfl⟩)
    | _ => exact nomatch h
  · rintro (⟨_, _, _, _, rfl⟩ | ⟨_, _, rfl⟩ | ⟨_, rfl⟩) <;> rfl

/-- Settles O4: the word of each operation decodes to it, and the table's decoder reads a word as its number. -/
theorem encodedOperationDecodesBack : Obligations.EncodedOperationDecodesBack :=
  ⟨fun i w hwf hw => decodeTableWord_toNat w i (decodeWord_of_encode i w hwf hw), encode_eq_none_iff⟩

/-- Of the four codes only 3 stands for no state (R21). -/
theorem ofCode_eq_none_iff (c : BitVec 2) : St.ofCode c = none ↔ c = 3#2 := by
  revert c
  decide

/-- A word with another state code than 3 has its fields. -/
theorem exists_ofWord_eq_ok (w : SelWord) (h : w.extractLsb' 8 2 ≠ 3#2) : ∃ x, Selection.ofWord w = .ok x := by
  rw [Selection.ofWord]
  cases hc : St.ofCode (w.extractLsb' 8 2) with
  | none => exact absurd ((ofCode_eq_none_iff _).1 hc) h
  | some st => exact ⟨_, rfl⟩

/-- A word that decodes is the selection of its fields. -/
theorem exists_ofWord_of_decodeWord {w : SelWord} {i : Instr} (h : decodeWord w = .ok i) :
    ∃ x, Selection.ofWord w = .ok x ∧ decode x = i := by
  rw [decodeWord] at h
  cases hx : Selection.ofWord w with
  | error e => rw [hx] at h; exact nomatch h
  | ok x => rw [hx] at h; exact ⟨x, rfl, Except.ok.inj h⟩

/-- Every selection decodes to an operation with an operand that its row admits (R62). -/
theorem decode_wellFormed (x : Selection) : (decode x).wellFormed = true := by
  obtain ⟨_, h⟩ | ⟨_, _, h⟩ | ⟨_, _, _, h⟩ | ⟨b, _, _, _, hb, h⟩ | ⟨_, _, _, h⟩ | ⟨_, _, _, h⟩ | ⟨_, _, _, h⟩
    | ⟨b, _, _, _, hb, _, h⟩ | ⟨b, _, _, _, hb, _, h⟩ | ⟨_, _, _, h⟩ | ⟨b, _, _, _, hb, _, h⟩
    | ⟨b, _, _, _, hb, _, h⟩ := decode_cases x
  all_goals rw [h]; simp [Instr.wellFormed, *]

/-- Settles O5: what a word decodes to is what a selection decodes to, whose row admits the operand and is no pure
function; only the state code 3 stands for no selection. -/
theorem decodedOperationIsWellFormed : Obligations.DecodedOperationIsWellFormed := by
  refine ⟨fun w i h => ?_, fun w h => ?_⟩
  · obtain ⟨x, -, rfl⟩ := exists_ofWord_of_decodeWord h
    exact ⟨decode_wellFormed x, Option.ne_none_iff_exists'.1 (encode_decode_ne_none x)⟩
  · obtain ⟨x, hx⟩ := exists_ofWord_eq_ok w h
    exact ⟨decode x, by rw [decodeWord, hx]⟩

/-- Settles O6: fixed words, each evaluated. -/
theorem decodeWordsOfTheSpec : Obligations.DecodeWordsOfTheSpec := by
  unfold Obligations.DecodeWordsOfTheSpec
  decide

/-- Settles O7: the state code 3 stands for no state, and a wider number is refused before it is read as a word. -/
theorem reservedWordsAreRefused : Obligations.ReservedWordsAreRefused := by
  refine ⟨fun w hw => ?code, fun n hn => ?wide, by decide⟩
  case code => rw [decodeWord, Selection.ofWord, hw, (ofCode_eq_none_iff 3#2).2 rfl]
  case wide => exact if_neg hn.not_gt

/-! ## The printed table -/

/-- A state's code and a byte make up a decode word in one way only (R63). -/
theorem code_append_inj (st st' : St) (b b' : Byte) : st.code ++ b = st'.code ++ b' ↔ st = st' ∧ b = b' := by
  refine ⟨fun h => ⟨?_, ?_⟩, fun ⟨hst, hb⟩ => hst ▸ hb ▸ rfl⟩
  · have hc : (st.code ++ b).extractLsb' 8 2 = (st'.code ++ b').extractLsb' 8 2 := congrArg _ h
    rw [BitVec.extractLsb'_append_eq_left, BitVec.extractLsb'_append_eq_left] at hc
    exact Option.some.inj (by rw [← ofCode_code st, hc, ofCode_code])
  · have hc : (st.code ++ b).extractLsb' 0 8 = (st'.code ++ b').extractLsb' 0 8 := congrArg _ h
    rwa [BitVec.extractLsb'_append_eq_right, BitVec.extractLsb'_append_eq_right] at hc

/-- A row of the printed table for one state and one byte, which looks at all ten bits (R63). -/
def markerRow (st : St) (m : Byte) (op : Byte → Instr) : OpRow := ⟨st.code ++ m, 0x3FF#10, 1, .always, op⟩

/-- A row of the printed table for one state and any byte, which looks at the state code only (R63). -/
def dataRow (st : St) (cond : RowCond) (op : Byte → Instr) : OpRow := ⟨st.code ++ 0#8, 0x300#10, 2, cond, op⟩

@[simp] theorem markerRow_priority (st : St) (m : Byte) (op : Byte → Instr) : (markerRow st m op).priority = 1 := rfl
@[simp] theorem markerRow_op (st : St) (m : Byte) (op : Byte → Instr) : (markerRow st m op).op = op := rfl
@[simp] theorem dataRow_priority (st : St) (cond : RowCond) (op : Byte → Instr) : (dataRow st cond op).priority = 2 :=
  rfl
@[simp] theorem dataRow_op (st : St) (cond : RowCond) (op : Byte → Instr) : (dataRow st cond op).op = op := rfl

/-- The printed table is made of these two forms. -/
theorem opRows_eq :
    opRows =
      [ markerRow .idle Config.mStart fun _ => .sync,
        dataRow .idle .always .noise,
        markerRow .collectingLabel Config.mInt fun _ => .ltypeInt,
        markerRow .collectingLabel Config.mInt2 fun _ => .ltypeInt2,
        markerRow .collectingLabel Config.mChar fun _ => .ltypeChar,
        dataRow .collectingLabel .room .lappend,
        dataRow .collectingLabel .full .lovf,
        markerRow .collectingPayload Config.mEnd fun _ => .pend,
        dataRow .collectingPayload .room .pappend,
        dataRow .collectingPayload .full .povf ] := rfl

/-- A marker's row hits its own word only. -/
theorem hits_markerRow (st st' : St) (b m : Byte) (op : Byte → Instr) (full : Bool) :
    (markerRow st' m op).hits (st.code ++ b) full = decide (st = st' ∧ b = m) := by
  have hmask : (st.code ++ b) &&& 0x3FF#10 = st.code ++ b := BitVec.and_allOnes
  rw [OpRow.hits, markerRow, hmask, beq_eq_decide, decide_eq_decide.2 (code_append_inj st st' b m)]
  exact Bool.and_true _

/-- A data row hits every word of its state, when its condition holds. -/
theorem hits_dataRow (st st' : St) (b : Byte) (cond : RowCond) (op : Byte → Instr) (full : Bool) :
    (dataRow st' cond op).hits (st.code ++ b) full = (decide (st = st') && cond.holds full) := by
  have hmask : (st.code ++ b) &&& (3#2 ++ 0#8) = st.code ++ 0#8 := by
    rw [BitVec.and_append, BitVec.and_zero]
    cases st <;> rfl
  have hcode : st.code ++ 0#8 = st'.code ++ 0#8 ↔ st = st' := by simp [code_append_inj]
  rw [OpRow.hits, dataRow, show (0x300#10) = 3#2 ++ 0#8 from rfl, hmask, beq_eq_decide, decide_eq_decide.2 hcode]

/-- The bytes that a state looks for before it looks at the room (R135). -/
def isMarkerIn : St → Byte → Bool
  | .idle, b => b == Config.mStart
  | .collectingLabel, b => isTypeMarker b
  | .collectingPayload, b => b == Config.mEnd

/-- No row goes before a marker's row: it applies where it hits. -/
@[simp] theorem applies_markerRow (st st' : St) (b m : Byte) (op : Byte → Instr) (full : Bool) :
    (markerRow st' m op).applies (st.code ++ b) full = decide (st = st' ∧ b = m) := by
  simp [OpRow.applies, opRows_eq, hits_markerRow]

/-- A data row applies where it hits, unless the byte is one that the state looks for. -/
@[simp] theorem applies_dataRow (st st' : St) (b : Byte) (cond : RowCond) (op : Byte → Instr) (full : Bool) :
    (dataRow st' cond op).applies (st.code ++ b) full
      = (decide (st = st') && cond.holds full && !isMarkerIn st b) := by
  have hmarkers : opRows.all (fun r => !(r.hits (st.code ++ b) full && decide (r.priority < 2)))
      = !isMarkerIn st b := by
    cases st <;> simp [opRows_eq, hits_markerRow, isMarkerIn, isTypeMarker, beq_eq_decide, Bool.and_assoc]
  rw [OpRow.applies, hits_dataRow, dataRow_priority, hmarkers]

/-- Settles O8: in each state, of the rows that hit, a marker's row goes before the data rows, and of these the room
picks one. -/
theorem opcodeTableSelectsDecodedOperation : Obligations.OpcodeTableSelectsDecodedOperation := by
  intro st b full
  have hbyte : (st.code ++ b).extractLsb' 0 8 = b := BitVec.extractLsb'_append_eq_right
  rw [tableSelect, opRows_eq, hbyte]
  cases st with
  | idle => by_cases hb : b = Config.mStart <;> simp [isMarkerIn, RowCond.holds, decode, hb]
  | collectingLabel =>
    by_cases h1 : b = Config.mInt
    · simp [isMarkerIn, isTypeMarker, decode, h1, Config.mInt2_ne_mInt.symm, Config.mChar_ne_mInt.symm]
    by_cases h2 : b = Config.mInt2
    · simp [isMarkerIn, isTypeMarker, decode, h2, Config.mInt2_ne_mInt, Config.mChar_ne_mInt2.symm]
    by_cases h3 : b = Config.mChar
    · simp [isMarkerIn, isTypeMarker, decode, h3, Config.mChar_ne_mInt, Config.mChar_ne_mInt2]
    cases full <;> simp [isMarkerIn, isTypeMarker, RowCond.holds, decode, h1, h2, h3]
  | collectingPayload =>
    by_cases hb : b = Config.mEnd
    · simp [isMarkerIn, decode, hb]
    cases full <;> simp [isMarkerIn, RowCond.holds, decode, hb]

/-! ## Placing a word -/

/-- A word of the table that decodes is the selection of the fields of its number. -/
theorem exists_ofWord_of_decodeTableWord {nbits w : Nat} {i : Instr} (h : decodeTableWord nbits w = some i) :
    tableNat nbits w < 8192
      ∧ ∃ x, Selection.ofWord (BitVec.ofNat 13 (tableNat nbits w)) = .ok x ∧ decode x = i := by
  rw [decodeTableWord, decodeNat] at h
  by_cases hn : tableNat nbits w < 8192
  · rw [if_pos hn] at h
    refine ⟨hn, exists_ofWord_of_decodeWord ?_⟩
    cases hw : decodeWord (BitVec.ofNat 13 (tableNat nbits w)) with
    | error e => rw [hw] at h; exact nomatch h
    | ok j => rw [hw] at h; rw [Option.some.inj h]
  · rw [if_neg hn] at h
    exact nomatch h

/-- The placed counter is at its maximum exactly when it is to be. -/
theorem fieldFull_placeField (s : State) (full : Bool) (h : s.st ≠ .idle) : fieldFull (placeField s full) = full := by
  cases hst : s.st with
  | idle => exact absurd hst h
  | collectingLabel => cases full <;> simp [placeField, fieldFull, labelRoom, placeCount, hst]
  | collectingPayload => cases full <;> simp [placeField, fieldFull, payloadRoom, placeCount, hst]

/-- Placing the counter leaves everything else. -/
theorem placeField_frame (s : State) (full : Bool) :
    (placeField s full).st = s.st ∧ (placeField s full).inputs = s.inputs ∧ (placeField s full).ptype = s.ptype
      ∧ (placeField s full).lbuf = s.lbuf ∧ (placeField s full).pbuf = s.pbuf
      ∧ (placeField s full).events = s.events ∧ (placeField s full).fnResult = s.fnResult := by
  unfold placeField
  split <;> exact ⟨rfl, rfl, rfl, rfl, rfl, rfl, rfl⟩

/-- In Idle the selection does not see a counter (R135). -/
theorem decode_idle_full (rst : Bool) (rx : Option Byte) (full full' : Bool) :
    decode { rst := rst, rx := rx, st := .idle, full := full }
      = decode { rst := rst, rx := rx, st := .idle, full := full' } := rfl

/-- What is placed is what the next step selects. -/
theorem selected_placeSelection (s : State) (x : Selection) : selected (placeSelection s x) = decode x := by
  rw [placeSelection]
  split
  case isTrue h => exact h
  case isFalse h =>
    have hst : x.st ≠ .idle := by
      intro hidle
      obtain ⟨rst, rx, st, full⟩ := x
      subst hidle
      exact h (decode_idle_full rst rx _ full)
    obtain ⟨hst', hin, -⟩ := placeField_frame (placeInput s x) x.full
    rw [selected, nextInput, hin, hst', fieldFull_placeField _ _ hst]
    rfl

/-- Placing puts one input before the others and touches no more than the state register and the counters. -/
theorem placeSelection_frame (s : State) (x : Selection) :
    (popInput (placeSelection s x)).inputs = s.inputs ∧ (placeSelection s x).ptype = s.ptype
      ∧ (placeSelection s x).lbuf = s.lbuf ∧ (placeSelection s x).pbuf = s.pbuf
      ∧ (placeSelection s x).events = s.events ∧ (placeSelection s x).fnResult = s.fnResult := by
  rw [placeSelection]
  split
  case isTrue => exact ⟨rfl, rfl, rfl, rfl, rfl, rfl⟩
  case isFalse =>
    obtain ⟨-, hin, hframe⟩ := placeField_frame (placeInput s x) x.full
    exact ⟨by rw [popInput_inputs, hin]; rfl, hframe⟩

/-- Settles O11: a word that decodes places the selection of its fields, which the next step selects. -/
theorem placedWordRunsNext : Obligations.PlacedWordRunsNext := by
  intro s nbits w i h
  obtain ⟨hn, x, hx, rfl⟩ := exists_ofWord_of_decodeTableWord h
  have hplaced : s.withFetchWord nbits w = placeSelection s x := by
    rw [State.withFetchWord, placeWord, if_pos hn, hx]
  rw [hplaced, step, selected_placeSelection]
  exact ⟨rfl, placeSelection_frame s x⟩

/-! ## Byte classes and wire lengths -/

/-- Settles O49: each marker is evaluated, and a byte that is no marker fails every test. -/
theorem byteClassDecidesOperation : Obligations.ByteClassDecidesOperation := by
  intro b
  by_cases hstart : b = Config.mStart
  · subst hstart; decide
  by_cases hint : b = Config.mInt
  · subst hint; decide
  by_cases hint2 : b = Config.mInt2
  · subst hint2; decide
  by_cases hchar : b = Config.mChar
  · subst hchar; decide
  by_cases hend : b = Config.mEnd
  · subst hend; decide
  simp [byteClass, isTypeMarker, decode, hstart, hint, hint2, hchar, hend]

/-- A packet on the wire is its label and payload and three markers more (R65, R69). -/
theorem encodePacket_length (l : Bytes) (t : PType) (p : Bytes) :
    (encodePacket l t p).length = l.length + 3 + p.length := by
  simp only [encodePacket, List.length_append, List.length_singleton]
  omega

/-- Settles O51: the notice is the Char packet of its byte, and every length is that of a packet. -/
theorem noticeImageAndWireLengths : Obligations.NoticeImageAndWireLengths := by
  refine ⟨fun b => ⟨rfl, rfl, rfl⟩, fun label data value v1 v2 c1 c2 => ⟨?_, ?_, ?_, ?_⟩⟩
  · exact encodePacket_length label .singleInt (encode32Bytes value)
  · exact encodePacket_length label .intPair (encode32Bytes v1 ++ encode32Bytes v2)
  · exact encodePacket_length label .char data
  · exact encodePacket_length label .charPair [c1, c2]

end Sys2Proof.Machine
end

section
/-! The buffers: canonical buffers that read alike are equal (log entry 4), and append with and without room
(20_memory.md R45). -/

namespace Sys2Proof.Machine

/-! ## The canonical form -/

theorem Memory.read_cons (k i : Nat) (v : Byte) (m : Memory) :
    Memory.read ((k, v) :: m) i = if k = i then v else Memory.read m i := rfl

/-- The rest of a canonical buffer is canonical, and its first entry is below every other and shows when read. -/
theorem Memory.wf_cons {n k : Nat} {v : Byte} {m : Memory} (h : Memory.wf n ((k, v) :: m)) :
    m.wf n ∧ v ≠ Config.unwrittenCell ∧ ∀ i ≤ k, Memory.read m i = Config.unwrittenCell := by
  obtain ⟨hpair, hcells⟩ := h
  obtain ⟨hlow, hpair⟩ := List.pairwise_cons.1 hpair
  obtain ⟨⟨_, hv⟩, hcells⟩ := List.forall_mem_cons.1 hcells
  exact ⟨⟨hpair, hcells⟩, hv, fun i hi => Memory.read_of_lt m i fun c hc => Nat.lt_of_le_of_lt hi (hlow c hc)⟩

/-- A first entry shows in what the buffer reads as, so another buffer that reads alike does not begin above it. -/
theorem Memory.head_le_of_read_eq {n k k' : Nat} {v v' : Byte} {m m' : Memory} (h : Memory.wf n ((k, v) :: m))
    (h' : Memory.wf n ((k', v') :: m')) (hread : ∀ i, Memory.read ((k, v) :: m) i = Memory.read ((k', v') :: m') i) :
    k' ≤ k := by
  by_contra hlt
  have hk := hread k
  rw [read_cons, if_pos rfl, read_cons, if_neg (by omega), (wf_cons h').2.2 k (by omega)] at hk
  exact (wf_cons h).2.1 hk

/-- Settles O33: the first entries show where a buffer first differs from the unwritten one, so they are the same, and
so, by induction, are the rests. -/
theorem canonicalBuffersThatReadAlikeAreEqual : Obligations.CanonicalBuffersThatReadAlikeAreEqual := by
  intro n m
  induction m with
  | nil =>
    intro m' _ hm' hread
    cases m' with
    | nil => rfl
    | cons c m' =>
      have hc := hread c.1
      rw [Memory.read_cons, if_pos rfl] at hc
      exact absurd hc.symm (Memory.wf_cons hm').2.1
  | cons c m ih =>
    obtain ⟨k, v⟩ := c
    intro m' hm hm' hread
    obtain ⟨hrest, hv, hlow⟩ := Memory.wf_cons hm
    cases m' with
    | nil =>
      have hk := hread k
      rw [Memory.read_cons, if_pos rfl] at hk
      exact absurd hk hv
    | cons c' m' =>
      obtain ⟨k', v'⟩ := c'
      obtain ⟨hrest', -, hlow'⟩ := Memory.wf_cons hm'
      obtain rfl : k = k' := Nat.le_antisymm (Memory.head_le_of_read_eq hm' hm fun i => (hread i).symm)
        (Memory.head_le_of_read_eq hm hm' hread)
      have hvalue : v = v' := by simpa [Memory.read_cons] using hread k
      have hreads : ∀ i, Memory.read m i = Memory.read m' i := by
        intro i
        by_cases hi : i = k
        · rw [hlow i hi.le, hlow' i hi.le]
        · simpa [Memory.read_cons, Ne.symm hi] using hread i
      rw [hvalue, ih m' hrest hrest' hreads]

/-! ## Append -/

/-- Settles O21: with room the append is one write and one count, without it the overflow operation. -/
theorem appendWritesAtCounterOrOverflows : Obligations.AppendWritesAtCounterOrOverflows := by
  intro s b hmem
  obtain ⟨hl, hp⟩ := hmem
  refine ⟨fun hr => ?labelRoom, fun hf => ?labelFull, fun hr => ?payloadRoom, fun hf => ?payloadFull⟩
  case labelRoom =>
    have hread := appendLabel_read b s hr hl
    exact ⟨appendLabel b s, rfl, (hread _).trans (if_pos rfl), fun a ha => (hread a).trans (if_neg ha),
      appendLabel_pbuf b s hr, appendLabel_llen b s hr⟩
  case labelFull =>
    have hovf : exec (.lappend b) s = exec (.lovf b) s := congrArg _ (appendLabel_full b s hf.not_lt)
    exact ⟨hovf, enterIdle (emit (.overflow .label) s), hovf, rfl, rfl⟩
  case payloadRoom =>
    have hread := appendPayload_read b s hr hp
    exact ⟨appendPayload b s, rfl, (hread _).trans (if_pos rfl), fun a ha => (hread a).trans (if_neg ha),
      appendPayload_lbuf b s hr, appendPayload_plen b s hr⟩
  case payloadFull =>
    have hovf : exec (.pappend b) s = exec (.povf b) s := congrArg _ (appendPayload_full b s hf.not_lt)
    exact ⟨hovf, enterIdle (emit (.overflow .payload) s), hovf, rfl, rfl⟩

end Sys2Proof.Machine
end

section
/-! What every step keeps: the frame of the buffers, the counters, the recorded type, the history and the output signals
(10_state.md section 3; 20_memory.md section 1; 43_unmarshal.md R128; 60_exceptions.md R165). -/

namespace Sys2Proof.Machine

/-! ## Registers and buffers -/

namespace StepView

variable {s t : State} {x : Input} {i : Instr}

/-- The label counter stays, is cleared or grows by its append below the maximum (R128). -/
theorem llen_cases (v : StepView s x i t) :
    t.llen = s.llen ∨ t.llen = 0
      ∨ (t.llen.val = s.llen.val + 1 ∧ s.llen.val < Config.lmax ∧ ∃ b, i = .lappend b) := by
  cases v with
  | hold | noise | ltypeInt | ltypeInt2 | ltypeChar => exact .inl rfl
  | pappend b _ _ hr => exact .inl (appendPayload_llen b s hr)
  | reset | sync | lovf | pend | povf => exact .inr (.inl rfl)
  | lappend b _ _ hr => exact .inr (.inr ⟨appendLabel_llen b s hr, hr, b, rfl⟩)

/-- The payload counter stays, is cleared or grows by its append below the maximum (R128). -/
theorem plen_cases (v : StepView s x i t) :
    t.plen = s.plen ∨ t.plen = 0
      ∨ (t.plen.val = s.plen.val + 1 ∧ s.plen.val < Config.pmax ∧ ∃ b, i = .pappend b) := by
  cases v with
  | hold | noise | sync => exact .inl rfl
  | lappend b _ _ hr => exact .inl (appendLabel_plen b s hr)
  | reset | ltypeInt | ltypeInt2 | ltypeChar | lovf | pend | povf => exact .inr (.inl rfl)
  | pappend b _ _ hr => exact .inr (.inr ⟨appendPayload_plen b s hr, hr, b, rfl⟩)

/-- A label cell changes only by LAPPEND, at the counter, to the byte received (R23). -/
theorem lbuf_read_cases (v : StepView s x i t) (hmem : s.memInv) (a : Nat) :
    t.lbuf.read a = s.lbuf.read a ∨ ∃ b, i = .lappend b ∧ a = s.llen.val ∧ t.lbuf.read a = b := by
  cases v with
  | lappend b _ _ hr =>
    have hread := appendLabel_read b s hr hmem.1 a
    by_cases ha : a = s.llen.val
    · exact .inr ⟨b, rfl, ha, hread.trans (if_pos ha)⟩
    · exact .inl (hread.trans (if_neg ha))
  | pappend b _ _ hr => exact .inl (congrArg (Memory.read · a) (appendPayload_lbuf b s hr))
  | reset | hold | sync | noise | ltypeInt | ltypeInt2 | ltypeChar | lovf | pend | povf => exact .inl rfl

/-- A payload cell changes only by PAPPEND, at the counter, to the byte received (R24). -/
theorem pbuf_read_cases (v : StepView s x i t) (hmem : s.memInv) (a : Nat) :
    t.pbuf.read a = s.pbuf.read a ∨ ∃ b, i = .pappend b ∧ a = s.plen.val ∧ t.pbuf.read a = b := by
  cases v with
  | pappend b _ _ hr =>
    have hread := appendPayload_read b s hr hmem.2 a
    by_cases ha : a = s.plen.val
    · exact .inr ⟨b, rfl, ha, hread.trans (if_pos ha)⟩
    · exact .inl (hread.trans (if_neg ha))
  | lappend b _ _ hr => exact .inl (congrArg (Memory.read · a) (appendLabel_pbuf b s hr))
  | reset | hold | sync | noise | ltypeInt | ltypeInt2 | ltypeChar | lovf | pend | povf => exact .inl rfl

/-- The type is kept, recorded by its marker, or cleared on entry to Idle (R22). -/
theorem ptype_cases (v : StepView s x i t) :
    t.ptype = s.ptype ∨ (i = .ltypeInt ∧ t.ptype = .singleInt) ∨ (i = .ltypeInt2 ∧ t.ptype = .intPair)
      ∨ (i = .ltypeChar ∧ t.ptype = .char) ∨ (t.st = .idle ∧ t.ptype = .singleInt) := by
  cases v with
  | hold | sync | noise => exact .inl rfl
  | lappend b _ _ hr => exact .inl (appendLabel_ptype b s hr)
  | pappend b _ _ hr => exact .inl (appendPayload_ptype b s hr)
  | ltypeInt => exact .inr (.inl ⟨rfl, rfl⟩)
  | ltypeInt2 => exact .inr (.inr (.inl ⟨rfl, rfl⟩))
  | ltypeChar => exact .inr (.inr (.inr (.inl ⟨rfl, rfl⟩)))
  | reset | lovf | pend | povf => exact .inr (.inr (.inr (.inr ⟨rfl, rfl⟩)))

/-- From inside a packet Idle is entered as canonical Idle only (D10). -/
theorem canonicalIdle_of_return (v : StepView s x i t) (hs : s.st ≠ .idle) (ht : t.st = .idle) : t.canonicalIdle := by
  cases v with
  | reset | lovf | pend | povf => exact canonicalIdle_enterIdle _
  | hold => exact absurd ht hs
  | sync | ltypeInt | ltypeInt2 | ltypeChar => exact nomatch ht
  | noise _ hst => exact absurd hst hs
  | lappend b _ _ hr => exact absurd ((appendLabel_st b s hr).symm.trans ht) hs
  | pappend b _ _ hr => exact absurd ((appendPayload_st b s hr).symm.trans ht) hs

end StepView

/-- A counter value fits in `LENW` bits (R9, R128). -/
theorem toNat_ofNat_lenw (n : Nat) (h : n < 100) : (BitVec.ofNat Config.lenw n).toNat = n :=
  Nat.mod_eq_of_lt (h.trans (by decide))

/-- Settles O30: only an append grows a counter, below the maximum, so it fits in its bits. -/
theorem countersNeverWrap : Obligations.CountersNeverWrap := by
  intro s t h
  have v := stepView_of_step s t h
  exact ⟨v.llen_cases, v.plen_cases, Nat.le_pred_of_lt t.llen.isLt, Nat.le_pred_of_lt t.plen.isLt,
    toNat_ofNat_lenw _ t.llen.isLt, toNat_ofNat_lenw _ t.plen.isLt⟩

/-- Settles O31: only the two appends write a cell, and only the pure functions the result field. -/
theorem cellsChangeOnlyByAppend : Obligations.CellsChangeOnlyByAppend := by
  intro s t hmem h
  have v := stepView_of_step s t h
  exact ⟨fun a ha => (v.lbuf_read_cases hmem a).resolve_left ha, fun a ha => (v.pbuf_read_cases hmem a).resolve_left ha,
    v.inputs_and_fnResult.2⟩

/-- Settles O32: the type is kept, recorded or cleared, and CharPair is neither recorded nor what clearing leaves. -/
theorem payloadTypeIsWrittenByMarkersOnly : Obligations.PayloadTypeIsWrittenByMarkersOnly := by
  intro s t h
  have v := stepView_of_step s t h
  refine ⟨v.ptype_cases, v.canonicalIdle_of_return, fun hs => ?_⟩
  obtain ht | ⟨-, ht⟩ | ⟨-, ht⟩ | ⟨-, ht⟩ | ⟨-, ht⟩ := v.ptype_cases
  · exact ht ▸ hs
  all_goals exact ht ▸ nofun

/-! ## Events and signals -/

/-- A step leaves the history or adds one event at its end (R145). -/
theorem StepView.events_cases {s t : State} {x : Input} {i : Instr} (v : StepView s x i t) :
    t.events = s.events ∨ ∃ e, t.events = s.events ++ [e] := by
  cases v with
  | reset | hold | sync | ltypeInt | ltypeInt2 | ltypeChar => exact .inl rfl
  | lappend b _ _ hr => exact .inl (appendLabel_events b s hr)
  | pappend b _ _ hr => exact .inl (appendPayload_events b s hr)
  | noise | lovf | pend | povf => exact .inr ⟨_, rfl⟩

/-- What a step adds to the history is the event it emits. -/
theorem events_of_step (s t : State) (h : step s = .next t) : t.events = s.events ++ (emitted s).toList := by
  obtain he | ⟨e, he⟩ := (stepView_of_step s t h).events_cases
  · rw [emitted_eq_none_of_step s t h he, he]
    exact (List.append_nil _).symm
  · rw [emitted_eq_some_of_step s t e h he, he]
    rfl

/-- An event raises the one strobe of its kind. -/
theorem portsOf_strobes (st : St) (e : Option Event) :
    ¬ ((portsOf st e).ntcValid = true ∧ (portsOf st e).pktValid = true)
      ∧ ¬ ((portsOf st e).ntcValid = true ∧ (portsOf st e).ovfValid = true)
      ∧ ¬ ((portsOf st e).pktValid = true ∧ (portsOf st e).ovfValid = true) := by
  match e with
  | none | some (.notice _) | some (.overflow _) | some (.packet ..) => simp [portsOf, quietPorts]

/-- Settles O28: a step leaves the history or adds one event, and the one event raises one strobe. -/
theorem stepEmitsAtMostOneEvent : Obligations.StepEmitsAtMostOneEvent :=
  fun s t h => ⟨events_of_step s t h, portsOf_strobes s.st (emitted s)⟩

/-- The state signal is the state before the step, whatever the event (R34). -/
theorem portsOf_stOut (st : St) (e : Option Event) : (portsOf st e).stOut = st.code := by
  match e with
  | none | some (.notice _) | some (.overflow _) | some (.packet ..) => rfl

namespace TableRow

variable {s : State} {i : Instr} {q : St} {e : Option Event}

/-- NOISE alone raises the notice strobe (R32). -/
theorem ntcValid_iff (row : TableRow s i q e) : (portsOf s.st e).ntcValid = true ↔ ∃ b, i = .noise b := by
  cases row <;> simp [portsOf, quietPorts]

/-- LOVF and POVF alone raise the overflow strobe (R33). -/
theorem ovfValid_iff (row : TableRow s i q e) :
    (portsOf s.st e).ovfValid = true ↔ (∃ b, i = .lovf b) ∨ ∃ b, i = .povf b := by
  cases row <;> simp [portsOf, quietPorts]

/-- PEND alone raises the packet strobe (R33). -/
theorem pktValid_iff (row : TableRow s i q e) : (portsOf s.st e).pktValid = true ↔ i = .pend := by
  cases row <;> simp [portsOf, quietPorts]

/-- A step that reports anything ends in Idle. -/
theorem idle_of_event (row : TableRow s i q e) (he : e ≠ none) : q = .idle := by
  cases row with
  | noise _ hst => exact hst
  | lovf | pend | povf => rfl
  | reset | hold | sync | ltypeInt | ltypeInt2 | ltypeChar | lappend | pappend => exact absurd rfl he

end TableRow

/-- Settles O29: the signals are those of the event in the table's row, whose operation is the one performed. -/
theorem portsShowTheStep : Obligations.PortsShowTheStep := by
  intro s
  obtain ⟨t, ht⟩ := step_next s
  have row := tableRow_of_step s t ht
  rw [ports]
  generalize selected s = i at row ⊢
  generalize emitted s = e at row ⊢
  generalize t.st = q at row
  refine ⟨portsOf_stOut s.st e, row.ntcValid_iff, ?noise, row.ovfValid_iff, ?lovf, ?povf, row.pktValid_iff, ?pend⟩
  case noise => rintro b rfl; cases row with | noise => rfl
  case lovf => rintro b rfl; cases row with | lovf => rfl
  case povf => rintro b rfl; cases row with | povf => rfl
  case pend =>
    rintro rfl
    cases row with
    | pend =>
      refine ⟨rfl, rfl, rfl, ⟨_, rfl, ?_⟩, ⟨_, rfl, ?_⟩, rfl, rfl, rfl⟩
      · rw [labelOf_length, toNat_ofNat_lenw _ s.llen.isLt]
      · rw [payloadOf_length, toNat_ofNat_lenw _ s.plen.isLt]

/-- A step that reports a condition leaves canonical Idle (R161, D10). -/
theorem canonicalIdle_of_causeCode (x : Input) (s t : State) (h : step (present x s) = .next t) (hreg : s.regInv)
    (hcause : causeCode (emitted (present x s)) ≠ 0) : t.canonicalIdle := by
  have hevent : emitted (present x s) ≠ none := fun hnone => hcause (hnone ▸ rfl)
  have hst : t.st = .idle := (tableRow_of_step _ t h).idle_of_event hevent
  exact ((stepView_of_step_present x s t h).regInv hreg).canonicalIdle hst

/-- Settles O27: every operation answers a next state, and a step that reports anything ends in Idle, where the
register invariants are canonical Idle and every byte has its operation. -/
theorem noConditionStopsTheBlock : Obligations.NoConditionStopsTheBlock := by
  intro s x
  obtain ⟨t, ht⟩ := step_next (present x s)
  refine ⟨t, ht, (stepView_of_step_present x s t ht).inputs_and_fnResult.1, fun hreg hcause => ?_⟩
  have hidle := canonicalIdle_of_causeCode x s t ht hreg hcause
  exact ⟨hidle, selected_sync t hidle.1, fun b => selected_noise b t hidle.1⟩

end Sys2Proof.Machine
end

section
/-! The operations one by one: what each does to the state, and its step, event and signals (40_idle.md, 41_label.md,
42_payload.md, 60_exceptions.md section 4, 70_reset_and_hazards.md R180). -/

namespace Sys2Proof.Machine

/-! ## The step and its signals -/

/-- A state with an input waiting is that input presented to the state without it. -/
theorem eq_present_of_inputs {s : State} {x : Input} {rest : List Input} (h : s.inputs = x :: rest) :
    s = present x { s with inputs := rest } := by
  rw [present, ← h]

/-- Settles O10: presenting the waiting input is the state itself, and with none waiting the step is a HOLD. -/
theorem stepRunsSelectedOperation : Obligations.StepRunsSelectedOperation := by
  refine ⟨fun s x rest h => ?_, step_no_input⟩
  rw [eq_present_of_inputs h, step_present, selected_present]
  rfl

/-- The signals of a step that leaves the history (R34). -/
theorem ports_of_quiet_step (s t : State) (h : step s = .next t) (he : t.events = s.events) :
    ports s = quietPorts s.st := by
  rw [ports, emitted_eq_none_of_step s t h he]
  rfl

/-- The signals of a step that adds one event to the history (R32, R33). -/
theorem ports_of_event_step (s t : State) (e : Event) (h : step s = .next t) (he : t.events = s.events ++ [e]) :
    ports s = portsOf s.st (some e) := by
  rw [ports, emitted_eq_some_of_step s t e h he]

/-- Settles O12: RESET enters canonical Idle before any byte is looked at, and leaves the history. -/
theorem resetEntersCanonicalIdle : Obligations.ResetEntersCanonicalIdle :=
  fun s => ⟨exec_reset s, fun rx => ⟨step_reset rx s, emitted_eq_none_of_step _ _ (step_reset rx s) rfl,
    ports_of_quiet_step _ _ (step_reset rx s) rfl⟩⟩

/-! ## The tx stream -/

/-- One event more on the tx side (R32). -/
theorem txStream_append_singleton (es : List Event) (e : Event) : txStream (es ++ [e]) = txStream es ++ e.tx := by
  rw [txStream, List.flatMap_append, List.flatMap_singleton]
  rfl

/-! ## Idle, label and payload -/

/-- Settles O15: NOISE adds its notice and nothing else, and a notice puts seven bytes on the tx side. -/
theorem noiseReportsOffendingByte : Obligations.NoiseReportsOffendingByte := by
  refine fun s b => ⟨exec_noise b s, fun hst hb => ?_, txStream_append_singleton s.events (.notice b)⟩
  have hstep := step_noise b s hst hb
  rw [ports_of_event_step _ _ (.notice b) hstep rfl]
  exact ⟨hstep, emitted_eq_some_of_step _ _ _ hstep rfl, rfl, rfl, rfl, rfl⟩

/-- Settles O16: each type marker ends the label with its own type, whatever the counter. -/
theorem typeMarkersEndLabel : Obligations.TypeMarkersEndLabel :=
  fun s => ⟨exec_ltypeInt s, exec_ltypeInt2 s, exec_ltypeChar s,
    fun hst => ⟨step_ltypeInt s hst, step_ltypeInt2 s hst, step_ltypeChar s hst⟩⟩

/-- Settles O18: both overflows are the one raising of their condition, which goes to the caller only. -/
theorem overflowAbortsPacket : Obligations.OverflowAbortsPacket := by
  refine fun s b => ⟨exec_lovf b s, exec_povf b s, fun hst hb hf => ?label, fun hst hb hf => ?payload, fun which => ?tx⟩
  case label =>
    have hstep := step_lovf b s hst hb hf.not_lt
    rw [ports_of_event_step _ _ (.overflow .label) hstep rfl]
    exact ⟨hstep, rfl, rfl⟩
  case payload =>
    have hstep := step_povf b s hst hb hf.not_lt
    rw [ports_of_event_step _ _ (.overflow .payload) hstep rfl]
    exact ⟨hstep, rfl, rfl⟩
  case tx => rw [txStream_append_singleton, Event.tx, List.append_nil]

/-- A byte of a value that is read off a buffer from its start. -/
theorem bufRead_getElem? (m : Memory) (n k : Nat) (h : k < n) : (bufRead m 0 n)[k]? = some (m.read k) := by
  simp [bufRead, h]

/-- Settles O19: delivery emits the packet of the values held and enters canonical Idle, and a value is read off the
cells below its counter. -/
theorem pendDeliversPacket : Obligations.PendDeliversPacket :=
  fun s => ⟨congrArg _ (deliver_eq s), step_pend s, labelOf_length s, bufRead_getElem? s.lbuf s.llen.val,
    payloadOf_length s, bufRead_getElem? s.pbuf s.plen.val⟩

/-! ## Error conditions -/

/-- A packet that is no length mismatch has no cause code (R156). -/
theorem causeCode_packet (l : Bytes) (t : PType) (p : Bytes) (v : IntView) (h : v ≠ .lenMismatch) :
    causeCode (some (.packet l t p v)) = 0 := by
  cases v with
  | lenMismatch => exact absurd rfl h
  | noInts | one | two => rfl

/-- Settles O48: each condition emits its event, and all but MalformedInput enter canonical Idle. -/
theorem conditionsRaiseTheirEvents : Obligations.ConditionsRaiseTheirEvents :=
  fun s => ⟨fun b => ⟨raise_malformedInput b s, rfl, rfl⟩, ⟨raise_overflowLabel s, rfl, rfl⟩,
    ⟨raise_overflowPayload s, rfl, rfl⟩, fun l t p => ⟨raise_lengthMismatch l t p s, rfl, rfl⟩, rfl, causeCode_packet⟩

end Sys2Proof.Machine
end
